-- ==== Sys2Proof/Word.lean ====
section
/-!
DEFINITION. The word types of the CCT block: the quantities spec/00_scope.md R7 gives a width to.
Each is a bit vector because the spec gives it a width in bits and, for the counters, modular arithmetic.
-/
namespace Sys2Proof

/-- A byte: 8 bits, bit 7 the most significant (R9). -/
abbrev Byte := BitVec 8

/-- A message id: `ID_W` = 6 bits (R7). -/
abbrev MsgId := BitVec 6

/-- A sequence number: `SEQ_W` = 6 bits (R7), counted modulo 64 (R35). -/
abbrev SeqNo := BitVec 6

/-- A message length on the wire: `LEN_W` = 16 bits (R7). -/
abbrev Length := BitVec 16

/-- A cursor: `CURSOR_W` = 16 bits (R7, the spec's decision D6). -/
abbrev Cursor := BitVec 16

/-- A node address: `NODE_W` = 16 bits, two's complement, the master being -1 (R7, D9). No rule computes with it (R10). -/
abbrev Node := BitVec 16

/-- A value of the time base: `TIME_W` = 32 bits (R7, D7). -/
abbrev Time := BitVec 32

/-- The index argument of `RX_READ`: 16 bits (R86, D24). -/
abbrev Index := BitVec 16

end Sys2Proof
end

