-- ==== Sys2Proof/Config.lean ====
section
/-!
DEFINITION. What is fixed when an instance of the block is built (R7, R27), and the free values: what the spec leaves
unspecified. A free value is an `opaque` constant without a body, so no proof can learn what it is.
-/
namespace Sys2Proof

/-- The two address spaces with storage (R50). The third space of R50, `PAY`, is the payload argument of one `TX_SEND`:
it is an operand, not storage. -/
inductive Space where
  /-- `TXB`: the snapshot of the payload being sent. -/
  | txb
  /-- `RXB`: the payload being reassembled, then the last one received. -/
  | rxb
deriving DecidableEq, Repr

/-- The OPEN parameters of an instance (R7). They are carried by the machine's state as a constant record, so that every
statement holds for every value of them; no operation changes them (R27). Assumption log 5. -/
structure Config.Params where
  /-- `MAX_SIZE`: bytes in each buffer and the capacity threshold. -/
  maxSize : Nat
  /-- `TX_TIMEOUT`: the per-frame acknowledgment timeout, in units of the time base. -/
  txTimeout : Nat
  /-- `PAD`: what the transmit side puts in frame bytes that carry no payload (R79). -/
  pad : Byte
deriving DecidableEq, Repr

/-- The constraint R7 puts on the parameters: `2 <= MAX_SIZE <= 65535`. -/
abbrev Config.Params.ok (p : Config.Params) : Prop := 2 ≤ p.maxSize ∧ p.maxSize ≤ 65535

/-- The defaults of R7, which every test vector of spec/95_test_vectors.md uses. -/
def Config.defaults : Config.Params := { maxSize := 1500, txTimeout := 1000, pad := 0x00#8 }

/-- FREE VALUE. The byte that an index of a buffer holds when nothing has written it since power-on: unspecified (R34, R53,
R202, U5). Assumption log 3. -/
opaque Config.powerOnByte : Space → Nat → Byte

/-- FREE VALUE. The data output of an `RX_READ` that answers `FAILED`: unspecified (R142). Its argument is the number of
values drawn before it, so that two such reads need not agree. Assumption log 4. -/
opaque Config.failedReadData : Nat → Byte

end Sys2Proof
end

