-- ==== Sys2Proof/Syntax.lean ====
section
/-!
DEFINITION. The operations and frames of spec/opcode_table.json, one constructor per row, and the form in which the host
hands them to the block.
-/
namespace Sys2Proof

/-- The type of a wire frame, the top two bits of its first byte (R71). -/
inductive FrameType where
  /-- First Frame: `ftype == 0`. -/
  | ff
  /-- Consecutive Frame: `ftype == 1`. -/
  | cf
  /-- Single Frame: `ftype == 2`. -/
  | sf
  /-- `ftype == 3`, assigned to no frame kind (R78). -/
  | unassigned
deriving DecidableEq, Repr

/-- A wire frame: exactly four bytes, `f0` being byte 0 of the source (R9, R70). -/
structure Frame where
  f0 : Byte
  f1 : Byte
  f2 : Byte
  f3 : Byte
deriving DecidableEq, Repr

/-- One constructor per row of spec/opcode_table.json. The four frame rows are inbound frames, with the arguments the codec
rules R105 to R110 give them: the node address the frame came from and the fields of the frame. The eleven operations have
the arguments of R85 in its order; the five reserved codes have none. -/
inductive Instr where
  /-- `FF`, an inbound First Frame (R73, R107). -/
  | ff (node : Node) (id : MsgId) (len : Length) (p0 : Byte)
  /-- `CF`, an inbound Consecutive Frame (R74, R108). -/
  | cf (node : Node) (seq : SeqNo) (a b c : Byte)
  /-- `SF`, an inbound Single Frame (R72, R106). -/
  | sf (node : Node) (id : MsgId) (len : Length) (p0 : Byte)
  /-- `FT3`, an inbound frame of the unassigned type 3 (R78, R110); its other 30 bits are ignored. -/
  | ft3 (node : Node) (low6 : BitVec 6) (b1 b2 b3 : Byte)
  /-- `RESET` (R160). -/
  | reset
  /-- `TX_SEND` (R121). -/
  | txSend (id : MsgId) (len : Length) (payload : List Byte) (node : Node) (now : Time) (wrOk : Bool)
  /-- `TX_ACK` (R122). -/
  | txAck
  /-- `TICK` (R123). -/
  | tick (now : Time) (wrOk : Bool)
  /-- `TX_TIMEOUT_EVT` (R124). -/
  | txTimeoutEvt
  /-- `TX_IO_ERROR` (R125). -/
  | txIoError
  /-- `TX_RESET` (R126). -/
  | txReset
  /-- `RX_FRAME` (R140). -/
  | rxFrame (node : Node) (b0 b1 b2 b3 : Byte)
  /-- `RX_RESET` (R141). -/
  | rxReset
  /-- `RX_READ` (R142). -/
  | rxRead (i : Index)
  /-- `STATUS` (R161). -/
  | status
  /-- Reserved operation code 0xB (R162). -/
  | reservedB
  /-- Reserved operation code 0xC (R162). -/
  | reservedC
  /-- Reserved operation code 0xD (R162). -/
  | reservedD
  /-- Reserved operation code 0xE (R162). -/
  | reservedE
  /-- Reserved operation code 0xF (R162). -/
  | reservedF
deriving DecidableEq, Repr

/-- One thing the host hands to the block (R60, R175): an operation line in its encoding (R90), or a frame as the adapter
takes it from the receive mailbox, with the address of the node it came from (R140). Assumption logs 1 and 2. -/
inductive Request where
  /-- An operation: its code and then its arguments, in bytes. -/
  | op (bytes : List Byte)
  /-- An inbound frame: its raw bytes, byte 0 first, and its sender. -/
  | frame (node : Node) (bytes : List Byte)
deriving DecidableEq, Repr

/-- Why the bytes of a request are not an instruction. The spec gives such bytes no meaning (R56, R86). -/
inductive DecodeError where
  /-- An operation request with no byte at all. -/
  | noCode
  /-- The code byte has a bit set above the 4-bit operation code. -/
  | codeTooWide (code : Byte)
  /-- There are fewer or more argument bytes than the operation takes. -/
  | argumentBytes (code : Nat)
  /-- The byte of a 6-bit message id is above 63. -/
  | idTooWide (b : Byte)
  /-- The byte of the 1-bit `wr_ok` is neither 0 nor 1. -/
  | wrOkTooWide (b : Byte)
  /-- A frame of fewer or more than four bytes. -/
  | frameBytes (n : Nat)
deriving DecidableEq, Repr

end Sys2Proof
end

