-- ==== Sys2Proof/WellFormed.lean ====
section
/-!
DEFINITION. Which terms of `Instr` are instructions. The argument widths of R86 are in the types of the constructors; what is
left to check is that the payload of a `TX_SEND` has exactly `len` bytes.
-/
namespace Sys2Proof

/-- "`payload`: a sequence of exactly `len` bytes" (R86). -/
def payloadFits (len : Length) (payload : List Byte) : Bool := payload.length == len.toNat

/-- The arguments have the form R86 gives them. -/
def wellFormed (i : Instr) : Bool :=
  match i with
  | .ff _ _ _ _ => true
  | .cf _ _ _ _ _ => true
  | .sf _ _ _ _ => true
  | .ft3 _ _ _ _ _ => true
  | .reset => true
  | .txSend _ len payload _ _ _ => payloadFits len payload
  | .txAck => true
  | .tick _ _ => true
  | .txTimeoutEvt => true
  | .txIoError => true
  | .txReset => true
  | .rxFrame _ _ _ _ _ => true
  | .rxReset => true
  | .rxRead _ => true
  | .status => true
  | .reservedB => true
  | .reservedC => true
  | .reservedD => true
  | .reservedE => true
  | .reservedF => true

end Sys2Proof
end

