-- ==== Sys2Proof/Decode.lean ====
section
/-!
DEFINITION. The fields of a wire frame (R70 to R76), the decoder from the bytes of a request to an instruction, the encoder
back, and the table-numbered words of spec/opcode_table.json.

A frame is four bytes, byte 0 first (R9, R70). An operation is "its `op` code (rule R85) followed by its arguments in the
order of rule R85" (R90); how these are laid in bytes is the model's choice (assumption log 2): one byte for the code, whole
bytes for every argument, the more significant byte first, bits beyond an argument's width 0.
-/
namespace Sys2Proof

/-! ### Fields -/

/-- The more significant byte of a 16-bit value: `len[15:8]` (R75). -/
def hiByte (w : BitVec 16) : Byte := w.extractLsb' 8 8

/-- The less significant byte of a 16-bit value: `len[7:0]` (R75). -/
def loByte (w : BitVec 16) : Byte := w.extractLsb' 0 8

/-- A 16-bit value from its two bytes, "`zext_16(F[1]) * 256 + zext_16(F[2])`" (R75). -/
def word16 (hi lo : Byte) : BitVec 16 := BitVec.ofNat 16 (hi.toNat * 256 + lo.toNat)

/-- A 32-bit value from its two halves, the more significant first. -/
def word32 (hi lo : BitVec 16) : BitVec 32 := BitVec.ofNat 32 (hi.toNat * 65536 + lo.toNat)

/-- The more significant half of a 32-bit value. -/
def hiHalf (w : BitVec 32) : BitVec 16 := w.extractLsb' 16 16

/-- The less significant half of a 32-bit value. -/
def loHalf (w : BitVec 32) : BitVec 16 := w.extractLsb' 0 16

/-- The number of a frame type (R71). -/
def ftypeCode (t : FrameType) : Nat :=
  match t with
  | .ff => 0
  | .cf => 1
  | .sf => 2
  | .unassigned => 3

/-- `F[0][7:6]` (R70, R71, R76). -/
def ftypeOf (f0 : Byte) : FrameType :=
  match (f0.extractLsb' 6 2).toNat with
  | 0 => .ff
  | 1 => .cf
  | 2 => .sf
  | _ => .unassigned

/-- `F[0][5:0]`: the message id of an SF or FF, the sequence number of a CF (R70, R76). -/
def low6Of (f0 : Byte) : BitVec 6 := f0.extractLsb' 0 6

/-- "`F[0] <- (ftype * 64) + low6`" (R76). -/
def headerByte (t : FrameType) (low6 : BitVec 6) : Byte := BitVec.ofNat 8 (ftypeCode t * 64 + low6.toNat)

/-- The byte of a 1-bit argument. -/
def bitByte (b : Bool) : Byte := if b then 1#8 else 0#8

/-! ### Frames -/

/-- The instruction of the four bytes of an inbound frame: the field extraction of R105, without its state test. -/
def frameInstr (node : Node) (f : Frame) : Instr :=
  match ftypeOf f.f0 with
  | .ff => .ff node (low6Of f.f0) (word16 f.f1 f.f2) f.f3
  | .cf => .cf node (low6Of f.f0) f.f1 f.f2 f.f3
  | .sf => .sf node (low6Of f.f0) (word16 f.f1 f.f2) f.f3
  | .unassigned => .ft3 node (low6Of f.f0) f.f1 f.f2 f.f3

/-- A frame request: exactly four bytes (R56). -/
def decodeFrame (node : Node) (bytes : List Byte) : Except DecodeError Instr :=
  match bytes with
  | [f0, f1, f2, f3] => .ok (frameInstr node ⟨f0, f1, f2, f3⟩)
  | _ => .error (.frameBytes bytes.length)

/-! ### Operations -/

/-- An operation without arguments. -/
def decodeBare (code : Nat) (i : Instr) (args : List Byte) : Except DecodeError Instr :=
  match args with
  | [] => .ok i
  | _ => .error (.argumentBytes code)

/-- The 1-bit argument `wr_ok` (R86). -/
def decodeBit (b : Byte) : Except DecodeError Bool :=
  if b = 0#8 then .ok false else if b = 1#8 then .ok true else .error (.wrOkTooWide b)

/-- The arguments `node`, `now`, `wr_ok` that follow the payload of a `TX_SEND`. -/
def decodeTxSendTail (id : MsgId) (len : Length) (payload tail : List Byte) : Except DecodeError Instr :=
  match tail with
  | [n1, n0, t3, t2, t1, t0, w] =>
    match decodeBit w with
    | .ok wrOk => .ok (.txSend id len payload (word16 n1 n0) (word32 (word16 t3 t2) (word16 t1 t0)) wrOk)
    | .error e => .error e
  | _ => .error (.argumentBytes 1)

/-- `TX_SEND`: `id`, `len`, `payload[0..len-1]`, `node`, `now`, `wr_ok` (R85, R86). -/
def decodeTxSend (args : List Byte) : Except DecodeError Instr :=
  match args with
  | idB :: l1 :: l0 :: rest =>
    if 64 ≤ idB.toNat then .error (.idTooWide idB)
    else if rest.length < (word16 l1 l0).toNat then .error (.argumentBytes 1)
    else decodeTxSendTail (low6Of idB) (word16 l1 l0) (rest.take (word16 l1 l0).toNat) (rest.drop (word16 l1 l0).toNat)
  | _ => .error (.argumentBytes 1)

/-- `TICK`: `now`, `wr_ok` (R85). -/
def decodeTick (args : List Byte) : Except DecodeError Instr :=
  match args with
  | [t3, t2, t1, t0, w] =>
    match decodeBit w with
    | .ok wrOk => .ok (.tick (word32 (word16 t3 t2) (word16 t1 t0)) wrOk)
    | .error e => .error e
  | _ => .error (.argumentBytes 3)

/-- `RX_FRAME`: `node`, `b0`, `b1`, `b2`, `b3` (R85). -/
def decodeRxFrame (args : List Byte) : Except DecodeError Instr :=
  match args with
  | [n1, n0, b0, b1, b2, b3] => .ok (.rxFrame (word16 n1 n0) b0 b1 b2 b3)
  | _ => .error (.argumentBytes 7)

/-- `RX_READ`: `i` (R85). -/
def decodeRxRead (args : List Byte) : Except DecodeError Instr :=
  match args with
  | [i1, i0] => .ok (.rxRead (word16 i1 i0))
  | _ => .error (.argumentBytes 9)

/-- The operation with the given code (R85, R89) and its argument bytes. -/
def decodeOp (code : Byte) (args : List Byte) : Except DecodeError Instr :=
  match code.toNat with
  | 0x0 => decodeBare 0x0 .reset args
  | 0x1 => decodeTxSend args
  | 0x2 => decodeBare 0x2 .txAck args
  | 0x3 => decodeTick args
  | 0x4 => decodeBare 0x4 .txTimeoutEvt args
  | 0x5 => decodeBare 0x5 .txIoError args
  | 0x6 => decodeBare 0x6 .txReset args
  | 0x7 => decodeRxFrame args
  | 0x8 => decodeBare 0x8 .rxReset args
  | 0x9 => decodeRxRead args
  | 0xA => decodeBare 0xA .status args
  | 0xB => decodeBare 0xB .reservedB args
  | 0xC => decodeBare 0xC .reservedC args
  | 0xD => decodeBare 0xD .reservedD args
  | 0xE => decodeBare 0xE .reservedE args
  | 0xF => decodeBare 0xF .reservedF args
  | _ => .error (.codeTooWide code)

/-- The instruction of a request: total on any bytes, rejecting by name. -/
def decode (r : Request) : Except DecodeError Instr :=
  match r with
  | .op [] => .error .noCode
  | .op (code :: args) => decodeOp code args
  | .frame node bytes => decodeFrame node bytes

/-! ### The encoder -/

/-- The two bytes of a 16-bit argument, the more significant first. -/
def bytes16 (w : BitVec 16) : List Byte := [hiByte w, loByte w]

/-- The four bytes of a 32-bit argument, the more significant first. -/
def bytes32 (w : BitVec 32) : List Byte := bytes16 (hiHalf w) ++ bytes16 (loHalf w)

/-- The bytes of an SF or FF (R72, R73). -/
def headerFrame (t : FrameType) (id : MsgId) (len : Length) (p0 : Byte) : Frame :=
  ⟨headerByte t id, hiByte len, loByte len, p0⟩

/-- The bytes of a CF (R74). -/
def cfFrame (seq : SeqNo) (a b c : Byte) : Frame := ⟨headerByte .cf seq, a, b, c⟩

/-- The bytes of a frame in their order (R9). -/
def frameBytes (f : Frame) : List Byte := [f.f0, f.f1, f.f2, f.f3]

/-- The request of an instruction: the same encoding tables, written forwards. -/
def encode (i : Instr) : Request :=
  match i with
  | .ff node id len p0 => .frame node (frameBytes (headerFrame .ff id len p0))
  | .cf node seq a b c => .frame node (frameBytes (cfFrame seq a b c))
  | .sf node id len p0 => .frame node (frameBytes (headerFrame .sf id len p0))
  | .ft3 node low6 b1 b2 b3 => .frame node [headerByte .unassigned low6, b1, b2, b3]
  | .reset => .op [0x0#8]
  | .txSend id len payload node now wrOk =>
    .op (0x1#8 :: id.setWidth 8 :: hiByte len :: loByte len :: (payload ++ (bytes16 node ++ bytes32 now ++ [bitByte wrOk])))
  | .txAck => .op [0x2#8]
  | .tick now wrOk => .op (0x3#8 :: (bytes32 now ++ [bitByte wrOk]))
  | .txTimeoutEvt => .op [0x4#8]
  | .txIoError => .op [0x5#8]
  | .txReset => .op [0x6#8]
  | .rxFrame node b0 b1 b2 b3 => .op (0x7#8 :: (bytes16 node ++ [b0, b1, b2, b3]))
  | .rxReset => .op [0x8#8]
  | .rxRead i => .op (0x9#8 :: bytes16 i)
  | .status => .op [0xA#8]
  | .reservedB => .op [0xB#8]
  | .reservedC => .op [0xC#8]
  | .reservedD => .op [0xD#8]
  | .reservedE => .op [0xE#8]
  | .reservedF => .op [0xF#8]

/-! ### Pseudo-operations -/

/-- The pseudo-operation `ACK_TICK now wr_ok`: `TX_ACK` followed by `TICK now wr_ok` (R91). -/
def ackTick (now : Time) (wrOk : Bool) : List Instr := [.txAck, .tick now wrOk]

/-- One line of the test-bench statement `LOOP src -> dst` (R91): a frame written by one instance, issued to the other. -/
def loopFrame (node : Node) (f : Frame) : Instr := .rxFrame node f.f0 f.f1 f.f2 f.f3

/-! ### The words of spec/opcode_table.json -/

/-- How many argument bytes the operation with this code takes when every argument is 0 (a `TX_SEND` of length 0 has no
payload byte). -/
def zeroArgBytes (code : Nat) : Nat :=
  match code with
  | 1 => 10
  | 3 => 5
  | 7 => 6
  | 9 => 2
  | _ => 0

/-- The request whose bits the table numbers as `w`. A row of format `OP4` has the code in its first byte and, beyond the
bits of the table, arguments of 0. A row of format `FRAME32` is the word view of R9: `W[31:24] = F[0]` down to
`W[7:0] = F[3]`, and the sender's address, to which the table gives no bits, is 0. -/
def tableRequest (nbits w : Nat) : Request :=
  if nbits ≤ 8 then .op (BitVec.ofNat 8 w :: List.replicate (zeroArgBytes w) 0#8)
  else .frame 0#16 [BitVec.ofNat 8 (w / 16777216), BitVec.ofNat 8 (w / 65536), BitVec.ofNat 8 (w / 256), BitVec.ofNat 8 w]

/-- What the decoder reads from the table-numbered word `w` of `nbits` bits. -/
def decodeTableWord (nbits w : Nat) : Option Instr :=
  match decode (tableRequest nbits w) with
  | .ok i => some i
  | .error _ => none

end Sys2Proof
end

