-- ==== Sys2Proof/Machine/State.lean ====
section
/-!
DEFINITION. The state of one instance of the block (R20 to R28), the outputs of an operation, the ways a step can stop, and
the state after reset (R34). The rule of spec/ that names each field stands beside it.
-/
namespace Sys2Proof.Machine

/-- `tx_state` (R21): no message in flight, or one. -/
inductive TxState where
  | idle
  | busy
deriving DecidableEq, Repr

/-- `tx_cstate` and `rx_cstate` (R21, R22): the codec's state. -/
inductive CodecState where
  /-- `INIT`: a new SF or FF is next. -/
  | init
  /-- `CTS`: the middle of a segmented message. -/
  | cts
deriving DecidableEq, Repr

/-- `rx_busy` (R22, R25): the convenience flag. -/
inductive RxFlag where
  | rxIdle
  | rxBusy
deriving DecidableEq, Repr

/-- One buffer (R50): the bytes written since power-on, by index. In the canonical form (`Memory.wf`) the indices rise
strictly. An index that is not listed holds no written byte; what a read of it gives is `Config.powerOnByte`. -/
abbrev Memory := List Host.Cell

/-- The indices of a memory rise strictly, and all are above `lo` where it is given. -/
def Memory.wfAbove : Option Nat → Memory → Bool
  | _, [] => true
  | none, (a, _) :: m => Memory.wfAbove (some a) m
  | some lo, (a, _) :: m => decide (lo < a) && Memory.wfAbove (some a) m

/-- The canonical form of a buffer: its indices rise strictly. An unlisted index reads as no written byte, so no entry can
equal what an unlisted index reads as. -/
def Memory.wf (m : Memory) : Bool := Memory.wfAbove none m

/-- Every listed index exists in a buffer of `n` bytes (R50). -/
def Memory.within (n : Nat) (m : Memory) : Bool := m.all (fun c => decide (c.1 < n))

/-- The transmit engine's fields (R21). -/
structure TxEngine where
  /-- `tx_state`, 1 bit. -/
  state : TxState
  /-- `tx_cstate`, 1 bit. -/
  cstate : CodecState
  /-- `tx_seq`, 6 bits. -/
  seq : SeqNo
  /-- `tx_cursor`, 16 bits. -/
  cursor : Cursor
  /-- `tx_id`, 6 bits. -/
  id : MsgId
  /-- `tx_len`, 16 bits. -/
  len : Length
  /-- `tx_node`, `NODE_W` bits. -/
  node : Node
  /-- `tx_buf`: the address space `TXB` (R23, R50). -/
  buf : Memory
  /-- `tx_ack`, 1 bit: an acknowledgment is pending (R25). -/
  ack : Bool
  /-- `tx_stamp`, `TIME_W` bits: when the last frame was written (R28, R182). -/
  stamp : Time
deriving DecidableEq, Repr

/-- The receive engine's fields (R22). -/
structure RxEngine where
  /-- `rx_cstate`, 1 bit. -/
  cstate : CodecState
  /-- `rx_busy`, 1 bit. -/
  busy : RxFlag
  /-- `rx_seq`, 6 bits: the next expected sequence number. -/
  seq : SeqNo
  /-- `rx_cursor`, 16 bits. -/
  cursor : Cursor
  /-- `rx_id`, 6 bits. -/
  id : MsgId
  /-- `rx_len`, 16 bits. -/
  len : Length
  /-- `rx_buf`: the address space `RXB` (R23, R50). -/
  buf : Memory
deriving DecidableEq, Repr

/-- The synchronous return codes (R87, R172). -/
inductive Status where
  | success
  | failed
  | exceededCapacity
  | mboxWriteFailed
  /-- Never produced by the block (R87, R189). -/
  | mboxReadFailed
deriving DecidableEq, Repr

/-- The event kinds, in the source's order (R88, R171). -/
inductive EventKind where
  | rxMsg
  | rxSnError
  | rxExceededCapacity
  | rxInvalidFrame
  | txDone
  | txTimeout
  | failure
deriving DecidableEq, Repr

/-- The `id` and `len` of the message an event reports, present only in `RX_MSG` (R174). -/
structure MsgInfo where
  id : MsgId
  len : Length
deriving DecidableEq, Repr

/-- An event: one invocation of the source's status callback (R170). -/
structure Event where
  kind : EventKind
  node : Node
  msg : Option MsgInfo
deriving DecidableEq, Repr

/-- A frame write: the frame and its destination, handed to the environment (R120). -/
structure FrameWrite where
  node : Node
  frame : Frame
deriving DecidableEq, Repr

/-- The two outputs of `STATUS` (R161). -/
structure BusyBits where
  txBusy : Bool
  rxBusy : Bool
deriving DecidableEq, Repr

/-- The outputs of one operation (R8): a status, at most one frame write, at most one event; and the outputs that `RX_READ`
and `STATUS` have beside them (R85). An output an operation does not assign is absent, and a status it does not
return is `SUCCESS` (R12). -/
structure Result where
  status : Status := .success
  wr : Option FrameWrite := none
  ev : Option Event := none
  data : Option Byte := none
  busy : Option BusyBits := none
deriving DecidableEq, Repr

/-- Why the machine stops with a fault. Safe: the block's own rules rule it out in every state reachable from reset
(R53, R54, R218), so a model that stops there proves nothing about such a step. -/
inductive Fault where
  /-- `BufRead` or `BufWrite` at an index that is not below `MAX_SIZE`, an address R50 says does not exist. Raised by the
  two buffer operations. Safe. -/
  | bufferIndex (space : Space) (index : Nat)
deriving DecidableEq, Repr

/-- Why a step has no meaning. -/
inductive Refusal where
  /-- An instruction without a meaning in this model. Raised by `exec` only. Safe. -/
  | notModelled (mnemonic : String)
  /-- The bytes of the next request are no instruction; the spec gives them no meaning (R56, R86). Raised by `step`. Safe. -/
  | undecodable (e : DecodeError)
  /-- A `TX_SEND` whose payload has not exactly `len` bytes, which R86 excludes and no decoded instruction has. Raised by
  the meaning of `TX_SEND` where it copies the payload. Safe. -/
  | payloadLength (len payloadBytes : Nat)
deriving DecidableEq, Repr

/-- The state of one instance: `S = (Tx, Rx)` (R20), its constant parameters (R27), and three fields of the model's own. -/
structure State where
  /-- `MAX_SIZE`, `TX_TIMEOUT` and `PAD`: constants of the instance (R7, R27). -/
  params : Config.Params
  /-- The transmit engine (R21). -/
  tx : TxEngine
  /-- The receive engine (R22). -/
  rx : RxEngine
  /-- THE MODEL'S OWN: what the host will hand to the block, in the order in which it issues it (R60). The block itself has
  no queue (R28). Assumption log 1. -/
  requests : List Request
  /-- THE MODEL'S OWN: the outputs of the last operation, which the host sees when it has completed (R170).
  Assumption log 1. -/
  result : Option Result
  /-- THE MODEL'S OWN: how many free values have been drawn. Assumption log 4. -/
  freeDraws : Nat
deriving DecidableEq, Repr

/-- The transmit engine after power-on and `RESET` (R34). `id`, `len`, `node` and `stamp`, to which the spec gives no
value, hold the values of assumption log 6. -/
def TxEngine.atReset : TxEngine :=
  { state := .idle, cstate := .init, seq := 1#6, cursor := 0#16, id := 0#6, len := 0#16, node := 0#16, buf := [],
    ack := false, stamp := 0#32 }

/-- The receive engine after power-on and `RESET` (R34). `id` and `len`, to which the spec gives no value, hold the values
of assumption log 6. -/
def RxEngine.atReset : RxEngine :=
  { cstate := .init, busy := .rxIdle, seq := 1#6, cursor := 0#16, id := 0#6, len := 0#16, buf := [] }

/-- The machine after power-on and `RESET` (R34, R201), with the default parameters of R7 and no request handed to it. -/
def State.reset : State :=
  { params := Config.defaults, tx := TxEngine.atReset, rx := RxEngine.atReset, requests := [], result := none,
    freeDraws := 0 }

end Sys2Proof.Machine
end

