-- ==== Sys2Proof/Machine/Operands.lean ====
section
/-!
DEFINITION. The quantities the operations compute from their operands and the engine's fields (R77, R103, R108, R112, R128),
and the numbers the spec gives to states, status codes and event kinds (R21, R22, R87, R88).
-/
namespace Sys2Proof.Machine

/-- The only arithmetic on a sequence counter: "`seq <- (seq + 1) mod 64`" (R35). -/
def nextSeq (seq : SeqNo) : SeqNo := BitVec.ofNat 6 ((seq.toNat + 1) % 64)

/-- The number of payload bytes in a CF: "`min(3, len - c)`" (R77), with "`max(0, ...)`" as in R108. In the precondition of
R103 the difference is positive, and the two forms agree. -/
def cfCount (len : Length) (cursor : Cursor) : Nat := min 3 (len.toNat - cursor.toNat)

/-- "`tx_cursor <- tx_cursor + n`" with `n = min(3, tx_len - tx_cursor)` over the integers (R103, R10): `c + min(3, len - c)`
is `min(c + 3, len)`. -/
def txCursorAfter (len : Length) (cursor : Cursor) : Cursor := BitVec.ofNat 16 (min (cursor.toNat + 3) len.toNat)

/-- "`rx_cursor <- rx_cursor + n`" (R108). -/
def rxCursorAfter (len : Length) (cursor : Cursor) : Cursor := BitVec.ofNat 16 (cursor.toNat + cfCount len cursor)

/-- The payload bytes of a CF, of which `n` are read: `F[1]` to `F[n]` (R77, R108). -/
def cfPayload (n : Nat) (a b c : Byte) : List Byte := [a, b, c].take n

/-- "`elapsed = (now - tx_stamp) mod 2^TIME_W`" (R128). -/
def elapsed (now stamp : Time) : Nat := (now - stamp).toNat

/-- The number of `tx_state`: `IDLE` = 0, `BUSY` = 1 (R21, D6). -/
def txStateCode (t : TxState) : Nat :=
  match t with
  | .idle => 0
  | .busy => 1

/-- The number of `tx_cstate` and `rx_cstate`: `INIT` = 0, `CTS` = 1 (R21, R22, D6). -/
def codecStateCode (c : CodecState) : Nat :=
  match c with
  | .init => 0
  | .cts => 1

/-- The number of `rx_busy`: `RX_IDLE` = 0, `RX_BUSY` = 1 (R22, D6). -/
def rxFlagCode (b : RxFlag) : Nat :=
  match b with
  | .rxIdle => 0
  | .rxBusy => 1

/-- The number of a status (R87, D4). -/
def statusCode (st : Status) : Nat :=
  match st with
  | .success => 0
  | .failed => 1
  | .exceededCapacity => 2
  | .mboxWriteFailed => 3
  | .mboxReadFailed => 4

/-- The number of an event kind (R88, D3). -/
def eventCode (k : EventKind) : Nat :=
  match k with
  | .rxMsg => 0
  | .rxSnError => 1
  | .rxExceededCapacity => 2
  | .rxInvalidFrame => 3
  | .txDone => 4
  | .txTimeout => 5
  | .failure => 6

end Sys2Proof.Machine
end

