-- ==== Sys2Proof/Machine/Flags.lean ====
section
/-!
DEFINITION. The conditions the operations test and the two flags `STATUS` reads (R25, R104, R123, R161). The block has no
condition codes: "no carry, zero, sign or overflow flags" (R25).
-/
namespace Sys2Proof.Machine

/-- The capacity test "`len >= MAX_SIZE`" (R104, R106, R107, R121). -/
def oversize (p : Config.Params) (len : Length) : Bool := decide (p.maxSize ≤ len.toNat)

/-- "`elapsed > TX_TIMEOUT`", strictly (R123, D8). -/
def timedOut (p : Config.Params) (now stamp : Time) : Bool := decide (p.txTimeout < elapsed now stamp)

/-- The completion test "`rx_cursor >= rx_len`" (R108). -/
def rxComplete (len : Length) (cursor : Cursor) : Bool := decide (len.toNat ≤ cursor.toNat)

/-- "`tx_busy <- (tx_state == BUSY)`" (R161). -/
def txBusyBit (t : TxEngine) : Bool := decide (t.state = .busy)

/-- "`rx_busy_out <- rx_busy`" (R161). -/
def rxBusyBit (r : RxEngine) : Bool := decide (r.busy = .rxBusy)

end Sys2Proof.Machine
end

