-- ==== Sys2Proof/Machine/Ops.lean ====
section
/-!
DEFINITION. The operations every meaning is written over: updates of the state, the buffers (R50 to R54), the two reset
functions (R30, R31), the outputs of an operation (R8, R12, R120), raising an event (R170, R177), and taking the next request.

Raising an event is this block's exception entry: "saves nothing and transfers control nowhere" (R177). There is no
return from it: "there is no return operation, nothing is restored" (R179).
-/
namespace Sys2Proof.Machine

/-! ### Updates -/

/-- The state with another transmit engine. -/
def State.setTx (s : State) (t : TxEngine) : State := { s with tx := t }

/-- The state with another receive engine. -/
def State.setRx (s : State) (r : RxEngine) : State := { s with rx := r }

/-- The state with the outputs of an operation. -/
def State.setResult (s : State) (r : Result) : State := { s with result := some r }

/-! ### Buffers -/

/-- The byte written at an index, if any. -/
def memRead : Memory → Nat → Option Byte
  | [], _ => none
  | (a, v) :: m, i => if i = a then some v else memRead m i

/-- Write one byte, keeping the indices strictly rising. -/
def memWrite : Memory → Nat → Byte → Memory
  | [], i, v => [(i, v)]
  | (a, w) :: m, i, v =>
    if i < a then (i, v) :: (a, w) :: m else if i = a then (i, v) :: m else (a, w) :: memWrite m i v

/-- Write a run of bytes at rising indices. -/
def memWriteAll : Memory → Nat → List Byte → Memory
  | m, _, [] => m
  | m, i, b :: bs => memWriteAll (memWrite m i b) (i + 1) bs

/-- The storage of an address space (R50). -/
def State.bufOf (s : State) (sp : Space) : Memory :=
  match sp with
  | .txb => s.tx.buf
  | .rxb => s.rx.buf

/-- The byte an index holds: the one written last, or, where nothing has written it since power-on, an unspecified one
(R34, R53). Assumption log 3. -/
def State.byteAt (s : State) (sp : Space) (i : Nat) : Byte :=
  match memRead (s.bufOf sp) i with
  | some v => v
  | none => Config.powerOnByte sp i

/-- The state with other storage for an address space. -/
def State.setBuf (s : State) (sp : Space) (m : Memory) : State :=
  match sp with
  | .txb => { s with tx := { s.tx with buf := m } }
  | .rxb => { s with rx := { s.rx with buf := m } }

/-- `BufRead(space, i)`, "for `0 <= i < MAX_SIZE`" (R53). -/
def bufRead (sp : Space) (i : Nat) (s : State) : Except Fault Byte :=
  if i < s.params.maxSize then .ok (s.byteAt sp i) else .error (.bufferIndex sp i)

/-- `BufWrite(space, i, v)`, "for `0 <= i < MAX_SIZE`" (R54). -/
def bufWrite (sp : Space) (i : Nat) (v : Byte) (s : State) : Except Fault State :=
  if i < s.params.maxSize then .ok (s.setBuf sp (memWrite (s.bufOf sp) i v)) else .error (.bufferIndex sp i)

/-- "`for j in ...: BufWrite(space, i + j, bytes[j])`" (R108, R121). -/
def bufWriteAll (sp : Space) : Nat → List Byte → State → Except Fault State
  | _, [], s => .ok s
  | i, b :: bs, s =>
    match bufWrite sp i b s with
    | .ok s' => bufWriteAll sp (i + 1) bs s'
    | .error f => .error f

/-! ### Reset functions -/

/-- `TxReset()` (R30): `tx_id`, `tx_len`, `tx_node`, `tx_buf` and `tx_stamp` stay. -/
def txResetEngine (t : TxEngine) : TxEngine :=
  { t with state := .idle, cstate := .init, cursor := 0#16, seq := 1#6, ack := false }

/-- `RxReset()` (R31): `rx_id`, `rx_len` and `rx_buf` stay. -/
def rxResetEngine (r : RxEngine) : RxEngine :=
  { r with cstate := .init, busy := .rxIdle, cursor := 0#16, seq := 1#6 }

/-- `TxReset()` on the whole state. -/
def resetTx (s : State) : State := s.setTx (txResetEngine s.tx)

/-- `RxReset()` on the whole state. -/
def resetRx (s : State) : State := s.setRx (rxResetEngine s.rx)

/-! ### The end of an operation -/

/-- `TxReset()` or `RxReset()`, by the address space of the engine concerned. -/
def resetEngine (side : Space) (s : State) : State :=
  match side with
  | .txb => resetTx s
  | .rxb => resetRx s

/-- RAISING AN EVENT, the one operation for it (R170, R177): the engine concerned is put into its reset state, and the event
is an output beside the operation's status and frame write. `side` names the engine by its buffer. Nothing is saved and
the other engine is not affected. -/
def raiseEvent (side : Space) (e : Event) (st : Status) (wr : Option FrameWrite) (s : State) : State :=
  (resetEngine side s).setResult { status := st, wr := wr, ev := some e }

/-- The end of an operation that raises no event: its outputs. -/
def finish (r : Result) (s : State) : Host.Outcome State Fault Refusal := .next (s.setResult r)

/-- A computation over the buffers as an outcome. -/
def outcomeOf (x : Except Fault State) : Host.Outcome State Fault Refusal :=
  match x with
  | .ok s => .next s
  | .error f => .fault f

/-! ### The next request -/

/-- The next request of the host and the state without it; none when the host has issued nothing (assumption log 1). -/
def fetch (s : State) : Option (Request × State) :=
  match s.requests with
  | [] => none
  | r :: rs => some (r, { s with requests := rs })

end Sys2Proof.Machine
end

