-- ==== Sys2Proof/Machine/Codec.lean ====
section
/-!
DEFINITION. The frame codec: `Encode` (R100 to R104) and `Decode` (R105 to R111), the functions the engines call.
-/
namespace Sys2Proof.Machine

/-! ### Encode -/

/-- What `Encode` answers: a frame, with the state its fields are left in, or a failure code (R100). -/
inductive Encoded where
  | frame (f : Frame) (s : State)
  | failure (st : Status)
deriving DecidableEq, Repr

/-- `EncodeSF()` (R101): a message of 0 or 1 payload bytes. -/
def encodeSF (s : State) : Except Fault Encoded :=
  match if 1 ≤ s.tx.len.toNat then bufRead .txb 0 s else .ok s.params.pad with
  | .ok p0 => .ok (.frame (headerFrame .sf s.tx.id s.tx.len p0) (s.setTx { s.tx with cursor := s.tx.len }))
  | .error f => .error f

/-- `EncodeFF()` (R102): the first frame of a message of 2 or more payload bytes. -/
def encodeFF (s : State) : Except Fault Encoded :=
  match bufRead .txb 0 s with
  | .ok p0 => .ok (.frame (headerFrame .ff s.tx.id s.tx.len p0) (s.setTx { s.tx with cursor := 1#16, cstate := .cts }))
  | .error f => .error f

/-- Byte `F[j]` of a CF that carries `n` payload bytes: "`if j <= n: F[j] <- BufRead(TXB, tx_cursor + j - 1)`, `else: PAD`"
(R103). -/
def cfByte (s : State) (n j : Nat) : Except Fault Byte :=
  if j ≤ n then bufRead .txb (s.tx.cursor.toNat + j - 1) s else .ok s.params.pad

/-- The transmit engine after a CF has been built (R103): the cursor advanced, the sequence number counted on, and `INIT`
once the cursor has reached `tx_len`. -/
def txAfterCF (t : TxEngine) : TxEngine :=
  { t with
    cursor := txCursorAfter t.len t.cursor
    seq := nextSeq t.seq
    cstate := if txCursorAfter t.len t.cursor = t.len then .init else t.cstate }

/-- `EncodeCF()` (R103): a continuation frame. It carries the sequence number before the increment. -/
def encodeCF (s : State) : Except Fault Encoded :=
  let n := cfCount s.tx.len s.tx.cursor
  match cfByte s n 1, cfByte s n 2, cfByte s n 3 with
  | .ok a, .ok b, .ok c => .ok (.frame (cfFrame s.tx.seq a b c) (s.setTx (txAfterCF s.tx)))
  | .error f, _, _ => .error f
  | _, .error f, _ => .error f
  | _, _, .error f => .error f

/-- `Encode()` (R100), with its failures (R104). -/
def encodeNext (s : State) : Except Fault Encoded :=
  if s.tx.state = .idle then .ok (.failure .failed)
  else if s.tx.cstate = .cts then encodeCF s
  else if oversize s.params s.tx.len then .ok (.failure .exceededCapacity)
  else if s.tx.len.toNat ≤ 1 then encodeSF s
  else encodeFF s

/-! ### Decode

Each function ends the operation that called it: it answers the state with the operation's outputs in it. The status is
`SUCCESS` on every path, and nothing is written to the channel (R140). -/

/-- The header of an SF or FF taken: "reset Rx state, read `id`/`length`" (R106, R107). -/
def rxTakeHeader (id : MsgId) (len : Length) (s : State) : State :=
  s.setRx { rxResetEngine s.rx with id := id, len := len }

/-- `RX_MSG` with the id and length of the message received (R106, R108, R174). -/
def raiseRxMsg (node : Node) (s : State) : State :=
  raiseEvent .rxb ⟨.rxMsg, node, some ⟨s.rx.id, s.rx.len⟩⟩ .success none s

/-- A receive error: an event of the given kind (R174: it has neither id nor length). -/
def raiseRxError (kind : EventKind) (node : Node) (s : State) : State :=
  raiseEvent .rxb ⟨kind, node, none⟩ .success none s

/-- `DecodeSF(node, id, L, p0)` (R106). -/
def decodeSF (node : Node) (id : MsgId) (len : Length) (p0 : Byte) (s : State) : Except Fault State :=
  if oversize s.params len then .ok (raiseRxError .rxExceededCapacity node (rxTakeHeader id len s))
  else
    match if 1 ≤ len.toNat then bufWrite .rxb 0 p0 (rxTakeHeader id len s) else .ok (rxTakeHeader id len s) with
    | .ok s' => .ok (raiseRxMsg node s')
    | .error f => .error f

/-- The receive engine entering `CTS` after a First Frame (R107). -/
def rxEnterCts (r : RxEngine) : RxEngine := { r with cursor := 1#16, cstate := .cts, busy := .rxBusy }

/-- `DecodeFF(node, id, L, p0)` (R107). -/
def decodeFF (node : Node) (id : MsgId) (len : Length) (p0 : Byte) (s : State) : Except Fault State :=
  if oversize s.params len then .ok (raiseRxError .rxExceededCapacity node (rxTakeHeader id len s))
  else
    match bufWrite .rxb 0 p0 (rxTakeHeader id len s) with
    | .ok s' => .ok ((s'.setRx (rxEnterCts s'.rx)).setResult {})
    | .error f => .error f

/-- `DecodeSnError(node)` (R109). -/
def decodeSnError (node : Node) (s : State) : State := raiseRxError .rxSnError node s

/-- `DecodeInvalid(node)` (R110). -/
def decodeInvalid (node : Node) (s : State) : State := raiseRxError .rxInvalidFrame node s

/-- The receive engine after a CF whose sequence number matches, before the completion test (R108). -/
def rxAfterCF (r : RxEngine) : RxEngine :=
  { r with seq := nextSeq r.seq, cursor := rxCursorAfter r.len r.cursor }

/-- The end of `DecodeCF`: "`if rx_cursor >= rx_len`: `RX_MSG`", otherwise no event (R108). -/
def rxFinishCF (node : Node) (s : State) : State :=
  if rxComplete s.rx.len s.rx.cursor then raiseRxMsg node s else s.setResult {}

/-- `DecodeCF(node, seq, F)` (R108): "append up to 3 payload bytes". Each payload byte goes to the index
`rx_cursor + j - 1` for the cursor before the frame. -/
def decodeCF (node : Node) (seq : SeqNo) (a b c : Byte) (s : State) : Except Fault State :=
  if seq ≠ s.rx.seq then .ok (decodeSnError node s)
  else
    match bufWriteAll .rxb s.rx.cursor.toNat (cfPayload (cfCount s.rx.len s.rx.cursor) a b c) s with
    | .ok s' => .ok (rxFinishCF node (s'.setRx (rxAfterCF s'.rx)))
    | .error f => .error f

/-- The CF arm of `Decode`: `DecodeCF` in `CTS`, `DecodeInvalid` otherwise (R105). -/
def receiveCF (node : Node) (seq : SeqNo) (a b c : Byte) (s : State) : Except Fault State :=
  match s.rx.cstate with
  | .cts => decodeCF node seq a b c s
  | .init => .ok (decodeInvalid node s)

/-- `Decode(node, F)` (R105). -/
def decodeInbound (node : Node) (f : Frame) (s : State) : Except Fault State :=
  match ftypeOf f.f0 with
  | .sf => decodeSF node (low6Of f.f0) (word16 f.f1 f.f2) f.f3 s
  | .ff => decodeFF node (low6Of f.f0) (word16 f.f1 f.f2) f.f3 s
  | .cf => receiveCF node (low6Of f.f0) f.f1 f.f2 f.f3 s
  | .unassigned => .ok (decodeInvalid node s)

end Sys2Proof.Machine
end

