-- ==== Sys2Proof/Machine/Rx.lean ====
section
/-!
DEFINITION. The operations of the receive engine (spec/42_rx_engine.md) and the four inbound frames of the opcode table, each
being `Decode` on a frame of that kind (R105).
-/
namespace Sys2Proof.Machine

/-- `RX_FRAME node, b0, b1, b2, b3` (R140). -/
def execRxFrame (node : Node) (b0 b1 b2 b3 : Byte) (s : State) : Host.Outcome State Fault Refusal :=
  outcomeOf (decodeInbound node ⟨b0, b1, b2, b3⟩ s)

/-- An inbound First Frame (R107, R140). -/
def execFf (node : Node) (id : MsgId) (len : Length) (p0 : Byte) (s : State) : Host.Outcome State Fault Refusal :=
  outcomeOf (decodeFF node id len p0 s)

/-- An inbound Consecutive Frame (R105, R108, R109, R110, R140). -/
def execCf (node : Node) (seq : SeqNo) (a b c : Byte) (s : State) : Host.Outcome State Fault Refusal :=
  outcomeOf (receiveCF node seq a b c s)

/-- An inbound Single Frame (R106, R140). -/
def execSf (node : Node) (id : MsgId) (len : Length) (p0 : Byte) (s : State) : Host.Outcome State Fault Refusal :=
  outcomeOf (decodeSF node id len p0 s)

/-- An inbound frame of type 3 (R110, R140): nothing of it but its type is looked at. -/
def execFt3 (node : Node) (_low6 : BitVec 6) (_b1 _b2 _b3 : Byte) (s : State) : Host.Outcome State Fault Refusal :=
  .next (decodeInvalid node s)

/-- `RX_RESET` (R141). -/
def execRxReset (s : State) : Host.Outcome State Fault Refusal := finish {} (resetRx s)

/-- `RX_READ` outside the buffer (R142): `FAILED`, and a data output that is unspecified, drawn as a free value. -/
def rxReadFailed (s : State) : State :=
  { s with freeDraws := s.freeDraws + 1,
           result := some { status := .failed, data := some (Config.failedReadData s.freeDraws) } }

/-- `RX_READ i` (R142). -/
def execRxRead (i : Index) (s : State) : Host.Outcome State Fault Refusal :=
  if s.params.maxSize ≤ i.toNat then .next (rxReadFailed s)
  else
    match bufRead .rxb i.toNat s with
    | .ok v => finish { data := some v } s
    | .error f => .fault f

end Sys2Proof.Machine
end

