-- ==== Sys2Proof/Machine/System.lean ====
section
/-!
DEFINITION. The system operations: `RESET`, `STATUS`, and the reserved operation codes (spec/43_system_ops.md).
-/
namespace Sys2Proof.Machine

/-- `RESET` (R160): `TxReset()` and then `RxReset()`. -/
def execReset (s : State) : Host.Outcome State Fault Refusal := finish {} (resetRx (resetTx s))

/-- `STATUS` (R161). -/
def execStatus (s : State) : Host.Outcome State Fault Refusal := finish { busy := some ⟨txBusyBit s.tx, rxBusyBit s.rx⟩ } s

/-- What the block does with a reserved operation code: it "changes no state, issues no write, raises no event and returns
`FAILED`" (R162). -/
def reservedCode (s : State) : Host.Outcome State Fault Refusal := finish { status := .failed } s

/-- Operation code 0xB (R162). -/
def execReservedB (s : State) : Host.Outcome State Fault Refusal := reservedCode s

/-- Operation code 0xC (R162). -/
def execReservedC (s : State) : Host.Outcome State Fault Refusal := reservedCode s

/-- Operation code 0xD (R162). -/
def execReservedD (s : State) : Host.Outcome State Fault Refusal := reservedCode s

/-- Operation code 0xE (R162). -/
def execReservedE (s : State) : Host.Outcome State Fault Refusal := reservedCode s

/-- Operation code 0xF (R162). -/
def execReservedF (s : State) : Host.Outcome State Fault Refusal := reservedCode s

end Sys2Proof.Machine
end

