-- ==== Sys2Proof/Machine/Tx.lean ====
section
/-!
DEFINITION. The operations of the transmit engine: `TX_SEND`, `TX_ACK`, `TICK`, `TX_TIMEOUT_EVT`, `TX_IO_ERROR`, `TX_RESET`
(spec/41_tx_engine.md).
-/
namespace Sys2Proof.Machine

/-- The event of the transmit engine with the given kind: its node is `tx_node`, its id and length are absent (R174). -/
def txEvent (kind : EventKind) (t : TxEngine) : Event := ⟨kind, t.node, none⟩

/-- "`tx_id <- id`, `tx_len <- len`, `tx_node <- node`" (R121). -/
def txLoadHeader (id : MsgId) (len : Length) (node : Node) (s : State) : State :=
  s.setTx { s.tx with id := id, len := len, node := node }

/-- "`tx_state <- BUSY`" (R121). -/
def txSetBusy (s : State) : State := s.setTx { s.tx with state := .busy }

/-- What `TX_SEND` does with the frame of its `Encode` (R121): a write answered `wr_ok == 0` resets the engine and is
reported by the status alone, otherwise the write is stamped and the acknowledgment flag cleared. -/
def txSendFrame (f : Frame) (now : Time) (wrOk : Bool) (s : State) : State :=
  if wrOk then (s.setTx { s.tx with stamp := now, ack := false }).setResult { wr := some ⟨s.tx.node, f⟩ }
  else (resetTx s).setResult { status := .mboxWriteFailed, wr := some ⟨s.tx.node, f⟩ }

/-- `TX_SEND` from the copy of the payload on (R121). `Encode` "cannot fail here"; its failure codes are passed on. -/
def txBegin (payload : List Byte) (now : Time) (wrOk : Bool) (s : State) : Except Fault State :=
  match bufWriteAll .txb 0 payload s with
  | .error f => .error f
  | .ok s1 =>
    match encodeNext (txSetBusy s1) with
    | .error f => .error f
    | .ok (.failure st) => .ok ((txSetBusy s1).setResult { status := st })
    | .ok (.frame f s2) => .ok (txSendFrame f now wrOk s2)

/-- `TX_SEND id, len, payload, node, now, wr_ok` (R121): busy before capacity before the write (R176). -/
def execTxSend (id : MsgId) (len : Length) (payload : List Byte) (node : Node) (now : Time) (wrOk : Bool) (s : State) :
    Host.Outcome State Fault Refusal :=
  if s.tx.state = .busy then finish { status := .failed } s
  else if oversize s.params len then finish { status := .exceededCapacity } s
  else if payloadFits len payload then outcomeOf (txBegin payload now wrOk (txLoadHeader id len node s))
  else .refused (.payloadLength len.toNat payload.length)

/-- `TX_ACK` (R122): "`if tx_state == BUSY: tx_ack <- 1`". -/
def execTxAck (s : State) : Host.Outcome State Fault Refusal :=
  match s.tx.state with
  | .busy => finish {} (s.setTx { s.tx with ack := true })
  | .idle => finish {} s

/-- The frame write of `TICK` (R123): a write answered `wr_ok == 0` raises `FAILURE`. -/
def txTickFrame (f : Frame) (now : Time) (wrOk : Bool) (s : State) : State :=
  if wrOk then (s.setTx { s.tx with stamp := now }).setResult { wr := some ⟨s.tx.node, f⟩ }
  else raiseEvent .txb (txEvent .failure s.tx) .mboxWriteFailed (some ⟨s.tx.node, f⟩) s

/-- `TICK` with a pending acknowledgment, which it has cleared: "ack final", or the next frame (R123). -/
def txAdvance (now : Time) (wrOk : Bool) (s : State) : Except Fault State :=
  match s.tx.cstate with
  | .init => .ok (raiseEvent .txb (txEvent .txDone s.tx) .success none s)
  | .cts =>
    match encodeNext s with
    | .error f => .error f
    | .ok (.failure st) => .ok (s.setResult { status := st })
    | .ok (.frame f s') => .ok (txTickFrame f now wrOk s')

/-- `TICK now, wr_ok` (R123): idle before pending acknowledgment before timeout (R176). -/
def execTick (now : Time) (wrOk : Bool) (s : State) : Host.Outcome State Fault Refusal :=
  match s.tx.state with
  | .idle => finish {} s
  | .busy =>
    if s.tx.ack then outcomeOf (txAdvance now wrOk (s.setTx { s.tx with ack := false }))
    else if timedOut s.params now s.tx.stamp then .next (raiseEvent .txb (txEvent .txTimeout s.tx) .success none s)
    else finish {} s

/-- A report of the lower layer that ends the send (R124, R125): the event if `BUSY`, nothing while `IDLE`. -/
def txReport (kind : EventKind) (s : State) : State :=
  match s.tx.state with
  | .busy => raiseEvent .txb (txEvent kind s.tx) .success none s
  | .idle => s.setResult {}

/-- `TX_TIMEOUT_EVT` (R124). -/
def execTxTimeoutEvt (s : State) : Host.Outcome State Fault Refusal := .next (txReport .txTimeout s)

/-- `TX_IO_ERROR` (R125). -/
def execTxIoError (s : State) : Host.Outcome State Fault Refusal := .next (txReport .failure s)

/-- `TX_RESET` (R126). -/
def execTxReset (s : State) : Host.Outcome State Fault Refusal := finish {} (resetTx s)

end Sys2Proof.Machine
end

