-- ==== Sys2Proof/Machine/Dispatch.lean ====
section
/-!
DEFINITION. The meaning of an instruction: one arm per constructor of `Instr`.
-/
namespace Sys2Proof.Machine

def exec (i : Instr) (s : State) : Host.Outcome State Fault Refusal :=
  match i with
  | .ff node id len p0 => Sys2Proof.Machine.execFf node id len p0 s
  | .cf node seq a b c => Sys2Proof.Machine.execCf node seq a b c s
  | .sf node id len p0 => Sys2Proof.Machine.execSf node id len p0 s
  | .ft3 node low6 b1 b2 b3 => Sys2Proof.Machine.execFt3 node low6 b1 b2 b3 s
  | .reset => Sys2Proof.Machine.execReset s
  | .txSend id len payload node now wrOk => Sys2Proof.Machine.execTxSend id len payload node now wrOk s
  | .txAck => Sys2Proof.Machine.execTxAck s
  | .tick now wrOk => Sys2Proof.Machine.execTick now wrOk s
  | .txTimeoutEvt => Sys2Proof.Machine.execTxTimeoutEvt s
  | .txIoError => Sys2Proof.Machine.execTxIoError s
  | .txReset => Sys2Proof.Machine.execTxReset s
  | .rxFrame node b0 b1 b2 b3 => Sys2Proof.Machine.execRxFrame node b0 b1 b2 b3 s
  | .rxReset => Sys2Proof.Machine.execRxReset s
  | .rxRead idx => Sys2Proof.Machine.execRxRead idx s
  | .status => Sys2Proof.Machine.execStatus s
  | .reservedB => Sys2Proof.Machine.execReservedB s
  | .reservedC => Sys2Proof.Machine.execReservedC s
  | .reservedD => Sys2Proof.Machine.execReservedD s
  | .reservedE => Sys2Proof.Machine.execReservedE s
  | .reservedF => Sys2Proof.Machine.execReservedF s

end Sys2Proof.Machine
end

