-- ==== Sys2Proof/Machine/Step.lean ====
section
/-!
DEFINITION. One step of the machine: the block carries out the next request of the host.

The block "executes no instruction stream and has no program counter" (R29); what it does next is what the host issues next
(R60). So a step takes the first request, decodes it and executes the instruction. Without a request the block does nothing.
-/
namespace Sys2Proof.Machine

/-- One step. Its outcomes: the next state; a fault of the operation; a refusal, of bytes that are no instruction or of the
operation. -/
def step (s : State) : Host.Outcome State Fault Refusal :=
  match fetch s with
  | none => .next s
  | some (r, s') =>
    match decode r with
    | .ok i => exec i s'
    | .error e => .refused (.undecodable e)

/-- The state in which the host's next request is the one whose bits the opcode table numbers as `w`. -/
def State.withFetchWord (s : State) (nbits w : Nat) : State := { s with requests := tableRequest nbits w :: s.requests }

end Sys2Proof.Machine
end

