-- ==== Sys2Proof/Machine/Link.lean ====
section
/-!
DEFINITION. Operations issued one after another to one instance, and the wire form of a whole message (R60, R91, R113, R114).
Nothing here is part of the machine's step; the laws of spec/40_codec.md section 3 are stated over it.
-/
namespace Sys2Proof.Machine

/-- Issue operations in order (R60): the outputs of each and the state after the last; nothing if one of them stops. -/
def issue : List Instr → State → Option (List Result × State)
  | [], s => some ([], s)
  | i :: is, s =>
    match exec i s with
    | .next t =>
      match t.result, issue is t with
      | some r, some (rs, u) => some (r :: rs, u)
      | _, _ => none
    | _ => none

/-- The frames written along a run of operations, in order. -/
def framesWritten (rs : List Result) : List Frame := rs.filterMap (fun r => r.wr.map FrameWrite.frame)

/-- The operations that send one message with every frame acknowledged: `TX_SEND`, and one `ACK_TICK` at each of the given
times (R91, R129). -/
def sendOps (id : MsgId) (len : Length) (payload : List Byte) (node : Node) (now : Time) (times : List Time) : List Instr :=
  .txSend id len payload node now true :: times.flatMap (fun t => ackTick t true)

/-- The number of CFs of a message: `ceil((len - 1) / 3)` for `len >= 2`, and none otherwise (R77). -/
def cfTotal (len : Nat) : Nat := if len ≤ 1 then 0 else (len + 1) / 3

/-- "`X(j) = P[j]` if `j < len` and `PAD` otherwise" (R114). -/
def payloadOrPad (pad : Byte) (payload : List Byte) (j : Nat) : Byte := (payload[j]?).getD pad

/-- CF number `k` of a message, `k = 1, 2, ...` (R114). -/
def closedCF (pad : Byte) (payload : List Byte) (k : Nat) : Frame :=
  ⟨BitVec.ofNat 8 (0x40 + k % 64), payloadOrPad pad payload (3 * k - 2), payloadOrPad pad payload (3 * k - 1),
    payloadOrPad pad payload (3 * k)⟩

/-- The closed form of a message's frames (R114). -/
def closedFrames (pad : Byte) (id : MsgId) (payload : List Byte) : List Frame :=
  if payload.length ≤ 1 then
    [⟨BitVec.ofNat 8 (0x80 + id.toNat), 0x00#8, BitVec.ofNat 8 payload.length, payloadOrPad pad payload 0⟩]
  else
    ⟨BitVec.ofNat 8 id.toNat, BitVec.ofNat 8 (payload.length / 256), BitVec.ofNat 8 (payload.length % 256),
      payloadOrPad pad payload 0⟩ ::
      (List.range (cfTotal payload.length)).map (fun k => closedCF pad payload (k + 1))

end Sys2Proof.Machine
end

