-- ==== Sys2Proof/Safety.lean ====
section
/-!
DEFINITION. What holds in every state reachable from reset: the invariants R32 and R33, with the form of the two buffers; the
reachable states of R200; and the words the statements use for what an operation leaves alone.
-/
namespace Sys2Proof.Machine

/-- The transmit invariant (R32), and that every byte of the message in flight has been written (R53). -/
structure TxInv (p : Config.Params) (t : TxEngine) : Prop where
  /-- R32 (a). -/
  idle : t.state = .idle → t.cstate = .init ∧ t.cursor = 0#16 ∧ t.seq = 1#6 ∧ t.ack = false
  /-- R32 (b). -/
  fits : t.state = .busy → t.len.toNat < p.maxSize
  /-- R32 (c). -/
  mid : t.state = .busy → t.cstate = .cts →
    1 ≤ t.cursor.toNat ∧ t.cursor.toNat < t.len.toNat ∧ 2 ≤ t.len.toNat ∧
      ∃ k, t.cursor.toNat = 1 + 3 * k ∧ t.seq.toNat = (1 + k) % 64
  /-- R32 (d). -/
  framed : t.state = .busy → t.cstate = .init → t.cursor = t.len
  /-- R53: "all written by the `TX_SEND` that set `tx_len`". -/
  written : t.state = .busy → ∀ j, j < t.len.toNat → (memRead t.buf j).isSome = true

/-- The receive invariant (R33 (a) and (b)). R33 (c) is `Buffers`. -/
structure RxInv (p : Config.Params) (r : RxEngine) : Prop where
  /-- R33 (a). -/
  init : r.cstate = .init → r.cursor = 0#16 ∧ r.seq = 1#6 ∧ r.busy = .rxIdle
  /-- R33 (b), first part. -/
  cts : r.cstate = .cts → r.busy = .rxBusy ∧ r.len.toNat < p.maxSize ∧ 1 ≤ r.cursor.toNat
  /-- R33 (b), second part: the number of CFs accepted so far, and what it says of `rx_seq` and `rx_cursor`. -/
  count : r.cstate = .cts → ∃ k, r.seq.toNat = (1 + k) % 64 ∧ r.cursor.toNat = min (1 + 3 * k) (max r.len.toNat 1) ∧
    (r.cursor.toNat < r.len.toNat ∨ (r.len.toNat ≤ 1 ∧ r.cursor.toNat = 1 ∧ k = 0))

/-- Both buffers are in canonical form, and every index written exists (R33 (c), R50). -/
structure Buffers (s : State) : Prop where
  txWf : s.tx.buf.wf = true
  txWithin : s.tx.buf.within s.params.maxSize = true
  rxWf : s.rx.buf.wf = true
  rxWithin : s.rx.buf.within s.params.maxSize = true

/-- What holds in every reachable state: R7's constraint on the parameters, R32, R33, and the form of the buffers. -/
structure BlockInv (s : State) : Prop where
  params : s.params.ok
  tx : TxInv s.params s.tx
  rx : RxInv s.params s.rx
  buffers : Buffers s

/-- A power-on state: every field arbitrary (R202), in buffers of `MAX_SIZE` bytes and under R7's constraint. -/
structure PowerOn (s : State) : Prop where
  params : s.params.ok
  buffers : Buffers s

/-- "a state obtained from any power-on state by `RESET` followed by any sequence of operations" (R200). The host may issue
further operations at any time. -/
inductive Reachable : State → Prop where
  | reset (s t : State) : PowerOn s → exec .reset s = .next t → Reachable t
  | issued (s : State) (rs : List Request) : Reachable s → Reachable { s with requests := rs }
  | step (s t : State) : Reachable s → step s = .next t → Reachable t

/-- What no operation changes but the fields that are the model's own: the parameters (R27), the requests still to come, and
the number of free values drawn. -/
structure HostKept (s t : State) : Prop where
  params : t.params = s.params
  requests : t.requests = s.requests
  freeDraws : t.freeDraws = s.freeDraws

/-- The transmit engine is in the reset state of R30. -/
def TxAtRest (t : TxEngine) : Prop :=
  t.state = .idle ∧ t.cstate = .init ∧ t.cursor = 0#16 ∧ t.seq = 1#6 ∧ t.ack = false

/-- The receive engine is in the reset state of R31. -/
def RxAtRest (r : RxEngine) : Prop := r.cstate = .init ∧ r.busy = .rxIdle ∧ r.cursor = 0#16 ∧ r.seq = 1#6

/-- The operations of the transmit engine (spec/41_tx_engine.md). -/
def isTxOp (i : Instr) : Bool :=
  match i with
  | .ff _ _ _ _ => false
  | .cf _ _ _ _ _ => false
  | .sf _ _ _ _ => false
  | .ft3 _ _ _ _ _ => false
  | .reset => false
  | .txSend _ _ _ _ _ _ => true
  | .txAck => true
  | .tick _ _ => true
  | .txTimeoutEvt => true
  | .txIoError => true
  | .txReset => true
  | .rxFrame _ _ _ _ _ => false
  | .rxReset => false
  | .rxRead _ => false
  | .status => false
  | .reservedB => false
  | .reservedC => false
  | .reservedD => false
  | .reservedE => false
  | .reservedF => false

/-- The inbound frames: the four frame rows of the table and `RX_FRAME`. -/
def isInbound (i : Instr) : Bool :=
  match i with
  | .ff _ _ _ _ => true
  | .cf _ _ _ _ _ => true
  | .sf _ _ _ _ => true
  | .ft3 _ _ _ _ _ => true
  | .reset => false
  | .txSend _ _ _ _ _ _ => false
  | .txAck => false
  | .tick _ _ => false
  | .txTimeoutEvt => false
  | .txIoError => false
  | .txReset => false
  | .rxFrame _ _ _ _ _ => true
  | .rxReset => false
  | .rxRead _ => false
  | .status => false
  | .reservedB => false
  | .reservedC => false
  | .reservedD => false
  | .reservedE => false
  | .reservedF => false

/-- The operations of the receive engine (spec/42_rx_engine.md), inbound frames among them. -/
def isRxOp (i : Instr) : Bool :=
  match i with
  | .rxReset => true
  | .rxRead _ => true
  | i => isInbound i

/-- The instruction of an inbound frame whichever way it was issued: `RX_FRAME` is `Decode` on its four bytes (R140). -/
def asFrame (i : Instr) : Instr :=
  match i with
  | .rxFrame node b0 b1 b2 b3 => frameInstr node ⟨b0, b1, b2, b3⟩
  | i => i

/-- The node address an inbound frame comes with (R145). -/
def inboundNode (i : Instr) : Option Node :=
  match i with
  | .ff node _ _ _ => some node
  | .cf node _ _ _ _ => some node
  | .sf node _ _ _ => some node
  | .ft3 node _ _ _ _ => some node
  | .rxFrame node _ _ _ _ => some node
  | _ => none

/-- The operation code an instruction is issued with (R85, R89, R90); a frame is issued as its four bytes and has none. -/
def opCode (i : Instr) : Option Nat :=
  match encode i with
  | .op (code :: _) => some code.toNat
  | _ => none

/-- Payload byte `j` of the message in flight, or a pad byte where the message has no such byte (R79, R114). -/
def sentByte (s : State) (j : Nat) : Byte := if j < s.tx.len.toNat then s.byteAt .txb j else s.params.pad

/-- The CF that the transmit engine writes next: `[0x40 + seq, X(c), X(c+1), X(c+2)]` for the cursor `c` (R74, R103). -/
def nextCF (s : State) : Frame :=
  ⟨BitVec.ofNat 8 (0x40 + s.tx.seq.toNat), sentByte s s.tx.cursor.toNat, sentByte s (s.tx.cursor.toNat + 1),
    sentByte s (s.tx.cursor.toNat + 2)⟩

/-- The first frame of a message: an SF for 0 or 1 bytes, otherwise an FF (R72, R73, R101, R102). -/
def firstFrame (pad : Byte) (id : MsgId) (len : Length) (payload : List Byte) : Frame :=
  ⟨BitVec.ofNat 8 ((if len.toNat ≤ 1 then 0x80 else 0x00) + id.toNat), BitVec.ofNat 8 (len.toNat / 256),
    BitVec.ofNat 8 (len.toNat % 256), payloadOrPad pad payload 0⟩

end Sys2Proof.Machine
end

