-- ==== Sys2Proof/Certificates/Slice0/Obligations.lean ====
section
/-!
DEFINITION. The statements for the provers. Each docstring names the rule of spec/ it formalises, or says that it is derived.
A state here is any state, reached or not; where a statement holds only in states the block can reach, its premise says so.

D1 to D31 are the spec's own decisions (spec/92_eei_decisions.md; assumption log 9). A docstring names those that a clause of its
statement rests on, and the log entries of the model's own choices in it; such a statement is listed as derived, and for those
clauses it cites the decision or the log entry and no rule.
-/
open Sys2Proof Sys2Proof.Machine

/-! ### Reset and the system operations -/

/-- The values R34 gives after power-on and `RESET`, in `State.reset`. The fields R34 calls unspecified are not mentioned.
The spec's own decisions (assumption log 9): D13 (`tx_ack` is 0), D23 (what `RESET` stands for). -/
def Obligations.ResetStateHasSpecifiedValues : Prop :=
  TxAtRest State.reset.tx ∧ RxAtRest State.reset.rx

/-- R160: what `RESET` does from any state, that it is idempotent, and that it equals `TX_RESET` and `RX_RESET` in either
order. The spec's own decisions (assumption log 9): D2 (the operation code), D13 (a reset clears `tx_ack`), D14 (the fields
a reset leaves alone), D23 (the operation itself). -/
def Obligations.ResetResetsBothEngines : Prop :=
  opCode .reset = some 0x0 ∧ ∀ s : State,
    exec .reset s = .next { s with
      tx := { s.tx with state := .idle, cstate := .init, cursor := 0#16, seq := 1#6, ack := false }
      rx := { s.rx with cstate := .init, busy := .rxIdle, cursor := 0#16, seq := 1#6 }
      result := some {} } ∧
    (∀ t, exec .reset s = .next t → exec .reset t = .next t) ∧
    (∀ a b, exec .txReset s = .next a → exec .rxReset a = .next b → exec .reset s = .next b) ∧
    (∀ a b, exec .rxReset s = .next a → exec .txReset a = .next b → exec .reset s = .next b)

/-- R126, R30: `TX_RESET`, from any state, with or without a message in flight; idempotent. The spec's own decisions
(assumption log 9): D2 (the operation code), D13 (a reset clears `tx_ack`), D14 (the fields a reset leaves alone). -/
def Obligations.TxResetResetsTxEngine : Prop :=
  opCode .txReset = some 0x6 ∧ ∀ s : State,
    exec .txReset s = .next { s with
      tx := { s.tx with state := .idle, cstate := .init, cursor := 0#16, seq := 1#6, ack := false }
      result := some {} } ∧
    (∀ t, exec .txReset s = .next t → exec .txReset t = .next t)

/-- R141, R31: `RX_RESET`, from any state; idempotent. `RXB`, `rx_id` and `rx_len` stay. The spec's own decisions
(assumption log 9): D2 (the operation code), D14 (`rx_id` and `rx_len` stay). -/
def Obligations.RxResetResetsRxEngine : Prop :=
  opCode .rxReset = some 0x8 ∧ ∀ s : State,
    exec .rxReset s = .next { s with
      rx := { s.rx with cstate := .init, busy := .rxIdle, cursor := 0#16, seq := 1#6 }
      result := some {} } ∧
    (∀ t, exec .rxReset s = .next t → exec .rxReset t = .next t)

/-- R161: `STATUS` reads the two busy flags and changes nothing; `tx_busy == 1` means that a `TX_SEND` now would return
`FAILED`, `tx_busy == 0` that it would not; and `rx_busy_out == 1` means, where R33 holds, that a segmented message is being
reassembled (R144). The spec's own decisions (assumption log 9): D1 (the operation itself), D2 (the operation code). -/
def Obligations.StatusReadsBusyFlags : Prop :=
  opCode .status = some 0xA ∧ ∀ s : State,
    exec .status s = .next { s with
      result := some { busy := some ⟨decide (s.tx.state = .busy), decide (s.rx.busy = .rxBusy)⟩ } } ∧
    (s.tx.state = .busy → ∀ id len payload node now wrOk,
      exec (.txSend id len payload node now wrOk) s = .next { s with result := some { status := .failed } }) ∧
    (s.tx.state = .idle → ∀ id len payload node now wrOk t r,
      exec (.txSend id len payload node now wrOk) s = .next t → t.result = some r → r.status ≠ .failed) ∧
    (RxInv s.params s.rx → (s.rx.busy = .rxBusy ↔ s.rx.cstate = .cts))

/-- R162, R89: the five reserved operation codes. The spec's own decisions (assumption log 9): D2 (the codes), D25 (what the
block does with them). -/
def Obligations.ReservedCodesOnlyFail : Prop :=
  [Instr.reservedB, .reservedC, .reservedD, .reservedE, .reservedF].map opCode =
    [some 0xB, some 0xC, some 0xD, some 0xE, some 0xF] ∧
  ∀ s : State, ∀ i ∈ [Instr.reservedB, .reservedC, .reservedD, .reservedE, .reservedF],
    exec i s = .next { s with result := some { status := .failed } }

/-! ### The transmit engine -/

/-- R121: `TX_SEND`. Busy, then capacity, then the write. From `IDLE` in `INIT` (which R32 (a) gives) a message within the
capacity is copied and its first frame written; a refused write leaves the engine reset, the message's values kept. The
spec's own decisions (assumption log 9): D2 (the operation code), D5 (the capacity test at `MAX_SIZE` itself), D10 (the pad
byte of an SF of length 0), D12 (the cursor after an SF), D13 (the cleared `tx_ack`), D14 (the values a refused write
leaves), D15 (the test before the copy), D16 (a refused write raises no event). -/
def Obligations.TxSendBeginsMessage : Prop :=
  ∀ (s : State) (id : MsgId) (len : Length) (payload : List Byte) (node : Node) (now : Time) (wrOk : Bool),
    opCode (.txSend id len payload node now wrOk) = some 0x1 ∧
    (s.tx.state = .busy →
      exec (.txSend id len payload node now wrOk) s = .next { s with result := some { status := .failed } }) ∧
    (s.tx.state = .idle → s.params.maxSize ≤ len.toNat →
      exec (.txSend id len payload node now wrOk) s = .next { s with result := some { status := .exceededCapacity } }) ∧
    (s.tx.state = .idle → s.tx.cstate = .init → len.toNat < s.params.maxSize → payload.length = len.toNat →
      ∃ t, exec (.txSend id len payload node now wrOk) s = .next t ∧ HostKept s t ∧ t.rx = s.rx ∧
        (∀ j, j < len.toNat → payload[j]? = some (t.byteAt .txb j)) ∧
        (∀ j, len.toNat ≤ j → t.byteAt .txb j = s.byteAt .txb j) ∧
        (wrOk = true →
          t.tx = { s.tx with
            state := .busy, cstate := if len.toNat ≤ 1 then .init else .cts
            cursor := if len.toNat ≤ 1 then len else 1#16
            id := id, len := len, node := node, buf := t.tx.buf, ack := false, stamp := now } ∧
          t.result = some { wr := some ⟨node, firstFrame s.params.pad id len payload⟩ }) ∧
        (wrOk = false →
          t.tx = { s.tx with
            state := .idle, cstate := .init, cursor := 0#16, seq := 1#6, ack := false
            id := id, len := len, node := node, buf := t.tx.buf } ∧
          t.result = some
            { status := .mboxWriteFailed, wr := some ⟨node, firstFrame s.params.pad id len payload⟩ }))

/-- R122: `TX_ACK`. It sets `tx_ack` while `BUSY`, is dropped while `IDLE`, and a second one changes nothing. The spec's own
decisions (assumption log 9): D2 (the operation code), D13, D17 (dropped while `IDLE`), D26 (it does not advance the
engine). -/
def Obligations.TxAckSetsFlagWhileBusy : Prop :=
  opCode .txAck = some 0x2 ∧ ∀ s : State,
    (s.tx.state = .busy → exec .txAck s = .next { s with tx := { s.tx with ack := true }, result := some {} }) ∧
    (s.tx.state = .idle → exec .txAck s = .next { s with result := some {} }) ∧
    (∀ t, exec .txAck s = .next t → exec .txAck t = .next t)

/-- R123: `TICK`. Idle; the final acknowledgment; the next CF, written or refused; the timeout. The CF's case has the
precondition of R103, which R32 (b) and (c) give. The spec's own decisions (assumption log 9): D2 (the operation code), D7
(the subtraction), D8 (the comparison is strict), D10 (the pad bytes), D12 (which acknowledgment is final), D13 (when
`tx_ack` is cleared), D14 (the fields a reset leaves alone), D16 (the event with a refused write), D18 (the status of a
timeout), D21 (the fields of the event). -/
def Obligations.TickAdvancesOrTimesOut : Prop :=
  ∀ (s : State) (now : Time) (wrOk : Bool),
    opCode (.tick now wrOk) = some 0x3 ∧
    (s.tx.state = .idle → exec (.tick now wrOk) s = .next { s with result := some {} }) ∧
    (s.tx.state = .busy → s.tx.ack = true → s.tx.cstate = .init →
      exec (.tick now wrOk) s = .next { s with
        tx := { s.tx with state := .idle, cstate := .init, cursor := 0#16, seq := 1#6, ack := false }
        result := some { ev := some ⟨.txDone, s.tx.node, none⟩ } }) ∧
    (s.tx.state = .busy → s.tx.ack = true → s.tx.cstate = .cts → s.tx.cursor.toNat < s.tx.len.toNat →
      s.tx.len.toNat < s.params.maxSize → wrOk = true →
      exec (.tick now wrOk) s = .next { s with
        tx := { s.tx with
          ack := false, stamp := now, seq := s.tx.seq + 1#6
          cursor := BitVec.ofNat 16 (min (s.tx.cursor.toNat + 3) s.tx.len.toNat)
          cstate := if s.tx.cursor.toNat + 3 < s.tx.len.toNat then .cts else .init }
        result := some { wr := some ⟨s.tx.node, nextCF s⟩ } }) ∧
    (s.tx.state = .busy → s.tx.ack = true → s.tx.cstate = .cts → s.tx.cursor.toNat < s.tx.len.toNat →
      s.tx.len.toNat < s.params.maxSize → wrOk = false →
      exec (.tick now wrOk) s = .next { s with
        tx := { s.tx with state := .idle, cstate := .init, cursor := 0#16, seq := 1#6, ack := false }
        result := some
          { status := .mboxWriteFailed, wr := some ⟨s.tx.node, nextCF s⟩, ev := some ⟨.failure, s.tx.node, none⟩ } }) ∧
    (s.tx.state = .busy → s.tx.ack = false →
      s.params.txTimeout < (now.toNat + 2 ^ 32 - s.tx.stamp.toNat) % 2 ^ 32 →
      exec (.tick now wrOk) s = .next { s with
        tx := { s.tx with state := .idle, cstate := .init, cursor := 0#16, seq := 1#6, ack := false }
        result := some { ev := some ⟨.txTimeout, s.tx.node, none⟩ } }) ∧
    (s.tx.state = .busy → s.tx.ack = false →
      (now.toNat + 2 ^ 32 - s.tx.stamp.toNat) % 2 ^ 32 ≤ s.params.txTimeout →
      exec (.tick now wrOk) s = .next { s with result := some {} })

/-- R124: `TX_TIMEOUT_EVT`. The spec's own decisions (assumption log 9): D2 (the operation code), D13 (a reset clears
`tx_ack`), D14 (the fields a reset leaves alone), D17 (nothing while `IDLE`), D21 (the fields of the event). -/
def Obligations.TxTimeoutEvtEndsSend : Prop :=
  opCode .txTimeoutEvt = some 0x4 ∧ ∀ s : State,
    (s.tx.state = .busy → exec .txTimeoutEvt s = .next { s with
      tx := { s.tx with state := .idle, cstate := .init, cursor := 0#16, seq := 1#6, ack := false }
      result := some { ev := some ⟨.txTimeout, s.tx.node, none⟩ } }) ∧
    (s.tx.state = .idle → exec .txTimeoutEvt s = .next { s with result := some {} })

/-- R125: `TX_IO_ERROR`. The spec's own decisions (assumption log 9): D2 (the operation code), D13 (a reset clears
`tx_ack`), D14 (the fields a reset leaves alone), D17 (nothing while `IDLE`), D21 (the fields of the event). -/
def Obligations.TxIoErrorEndsSend : Prop :=
  opCode .txIoError = some 0x5 ∧ ∀ s : State,
    (s.tx.state = .busy → exec .txIoError s = .next { s with
      tx := { s.tx with state := .idle, cstate := .init, cursor := 0#16, seq := 1#6, ack := false }
      result := some { ev := some ⟨.failure, s.tx.node, none⟩ } }) ∧
    (s.tx.state = .idle → exec .txIoError s = .next { s with result := some {} })

/-- R127, R129, R130: a message in flight ends only by an event of the transmit engine, `TX_RESET` or `RESET`, and always
through `TxReset()`. The spec marks R127 and R129 as derived. The spec's own decisions (assumption log 9): D13 (a reset
clears `tx_ack`), D14 (the fields a reset leaves alone), D16 (a refused CF raises an event). -/
def Obligations.BusyEndsOnlyThroughTxReset : Prop :=
  ∀ (i : Instr) (s t : State), s.tx.state = .busy → exec i s = .next t → t.tx.state = .idle →
    t.tx = { s.tx with state := .idle, cstate := .init, cursor := 0#16, seq := 1#6, ack := false } ∧
    (i = .txReset ∨ i = .reset ∨
      ∃ r e, t.result = some r ∧ r.ev = some e ∧ (e.kind = .txDone ∨ e.kind = .txTimeout ∨ e.kind = .failure))

/-! ### The receive engine -/

/-- R106: an inbound Single Frame, in either Rx state. The spec's own decisions (assumption log 9): D5 (the capacity test at
`MAX_SIZE` itself), D9 (the event's node is the frame's), D14 (the fields a reset leaves alone), D20 (a length above 1), D21
(the fields of the event), D28 (accepted in `CTS`), D30 (`rx_id` and `rx_len` of a refused header). -/
def Obligations.SingleFrameDelivers : Prop :=
  ∀ (s : State) (node : Node) (id : MsgId) (len : Length) (p0 : Byte),
    (s.params.maxSize ≤ len.toNat → exec (.sf node id len p0) s = .next { s with
      rx := { s.rx with cstate := .init, busy := .rxIdle, cursor := 0#16, seq := 1#6, id := id, len := len }
      result := some { ev := some ⟨.rxExceededCapacity, node, none⟩ } }) ∧
    (len.toNat < s.params.maxSize → ∃ t, exec (.sf node id len p0) s = .next t ∧ HostKept s t ∧ t.tx = s.tx ∧
      t.rx = { s.rx with
        cstate := .init, busy := .rxIdle, cursor := 0#16, seq := 1#6, id := id, len := len, buf := t.rx.buf } ∧
      t.result = some { ev := some ⟨.rxMsg, node, some ⟨id, len⟩⟩ } ∧
      (1 ≤ len.toNat → t.byteAt .rxb 0 = p0) ∧
      (∀ j, len.toNat = 0 ∨ j ≠ 0 → t.byteAt .rxb j = s.byteAt .rxb j))

/-- R107: an inbound First Frame, in either Rx state. The spec's own decisions (assumption log 9): D5 (the capacity test at
`MAX_SIZE` itself), D9 (the event's node is the frame's), D14 (the fields a reset leaves alone), D20 (a length below 2), D21
(the fields of the event), D28 (accepted in `CTS`), D30 (`rx_id` and `rx_len` of a refused header). -/
def Obligations.FirstFrameStartsReassembly : Prop :=
  ∀ (s : State) (node : Node) (id : MsgId) (len : Length) (p0 : Byte),
    (s.params.maxSize ≤ len.toNat → exec (.ff node id len p0) s = .next { s with
      rx := { s.rx with cstate := .init, busy := .rxIdle, cursor := 0#16, seq := 1#6, id := id, len := len }
      result := some { ev := some ⟨.rxExceededCapacity, node, none⟩ } }) ∧
    (len.toNat < s.params.maxSize → ∃ t, exec (.ff node id len p0) s = .next t ∧ HostKept s t ∧ t.tx = s.tx ∧
      t.rx = { s.rx with
        cstate := .cts, busy := .rxBusy, cursor := 1#16, seq := 1#6, id := id, len := len, buf := t.rx.buf } ∧
      t.result = some {} ∧
      t.byteAt .rxb 0 = p0 ∧
      (∀ j, j ≠ 0 → t.byteAt .rxb j = s.byteAt .rxb j))

/-- R108: a Consecutive Frame in `CTS` with the expected sequence number, the announced length being below `MAX_SIZE` (which
R33 (b) gives). It stores `n = min(3, max(0, rx_len - rx_cursor))` bytes from `rx_cursor` on, and completes the message or
goes on. The count is the spec's derivation from R103 and R113. The spec's own decisions (assumption log 9): D9 (the event's
node is the frame's), D14 (the fields a reset leaves alone), D20 (`max(0, ...)` and `>=`). -/
def Obligations.ConsecutiveFrameAppends : Prop :=
  ∀ (s : State) (node : Node) (seq : SeqNo) (a b c : Byte),
    s.rx.cstate = .cts → seq = s.rx.seq → s.rx.len.toNat < s.params.maxSize →
      ∃ t, exec (.cf node seq a b c) s = .next t ∧ HostKept s t ∧ t.tx = s.tx ∧
        (∀ j, j < min 3 (s.rx.len.toNat - s.rx.cursor.toNat) →
          [a, b, c][j]? = some (t.byteAt .rxb (s.rx.cursor.toNat + j))) ∧
        (∀ j, j < s.rx.cursor.toNat ∨ s.rx.cursor.toNat + min 3 (s.rx.len.toNat - s.rx.cursor.toNat) ≤ j →
          t.byteAt .rxb j = s.byteAt .rxb j) ∧
        (s.rx.cursor.toNat + 3 < s.rx.len.toNat →
          t.rx = { s.rx with
            seq := s.rx.seq + 1#6, cursor := BitVec.ofNat 16 (s.rx.cursor.toNat + 3), buf := t.rx.buf } ∧
          t.result = some {}) ∧
        (s.rx.len.toNat ≤ s.rx.cursor.toNat + 3 →
          t.rx = { s.rx with cstate := .init, busy := .rxIdle, cursor := 0#16, seq := 1#6, buf := t.rx.buf } ∧
          t.result = some { ev := some ⟨.rxMsg, node, some ⟨s.rx.id, s.rx.len⟩⟩ })

/-- R109: a Consecutive Frame in `CTS` with another sequence number. Nothing is stored, the partial message is discarded,
every later Consecutive Frame of it is an invalid frame, and a fresh Single or First Frame is accepted. The spec's own
decisions (assumption log 9): D9 (the event's node is the frame's), D14 (`rx_id` and `rx_len` stay), D20 (an SF of length 2
or more and an FF of length 0 or 1 are accepted), D21 (the fields of the event). -/
def Obligations.WrongSequenceDiscards : Prop :=
  ∀ (s : State) (node : Node) (seq : SeqNo) (a b c : Byte), s.rx.cstate = .cts → seq ≠ s.rx.seq →
    exec (.cf node seq a b c) s = .next { s with
      rx := { s.rx with cstate := .init, busy := .rxIdle, cursor := 0#16, seq := 1#6 }
      result := some { ev := some ⟨.rxSnError, node, none⟩ } } ∧
    ∀ t, exec (.cf node seq a b c) s = .next t →
      (∀ node' seq' x y z, exec (.cf node' seq' x y z) t =
        .next { t with result := some { ev := some ⟨.rxInvalidFrame, node', none⟩ } }) ∧
      (∀ node' id len p0, len.toNat < s.params.maxSize →
        (∃ u, exec (.sf node' id len p0) t = .next u ∧ u.result = some { ev := some ⟨.rxMsg, node', some ⟨id, len⟩⟩ }) ∧
        (∃ u, exec (.ff node' id len p0) t = .next u ∧ u.result = some {} ∧ u.rx.cstate = .cts))

/-- R110: a Consecutive Frame in `INIT`, and a frame of type 3 in any state. The spec's own decisions (assumption log 9): D9
(the event's node is the frame's), D14 (`rx_id` and `rx_len` stay), D21 (the fields of the event). -/
def Obligations.InvalidFrameDiscards : Prop :=
  ∀ s : State,
    (s.rx.cstate = .init → ∀ node seq a b c, exec (.cf node seq a b c) s = .next { s with
      rx := { s.rx with cstate := .init, busy := .rxIdle, cursor := 0#16, seq := 1#6 }
      result := some { ev := some ⟨.rxInvalidFrame, node, none⟩ } }) ∧
    (∀ node low6 b1 b2 b3, exec (.ft3 node low6 b1 b2 b3) s = .next { s with
      rx := { s.rx with cstate := .init, busy := .rxIdle, cursor := 0#16, seq := 1#6 }
      result := some { ev := some ⟨.rxInvalidFrame, node, none⟩ } })

/-- R111 (b) and (c): after a First Frame announcing 0 or 1 bytes, the next Consecutive Frame numbered 1 stores nothing and
delivers a message of that length. The spec's own decisions (assumption log 9): D9 (the event's node is the frame's), D20
(the whole behaviour). -/
def Obligations.ShortFirstFrameDelivers : Prop :=
  ∀ (s : State) (node node' : Node) (id : MsgId) (len : Length) (p0 a b c : Byte),
    s.params.ok → len.toNat ≤ 1 →
      ∃ t u, exec (.ff node id len p0) s = .next t ∧ exec (.cf node' 1#6 a b c) t = .next u ∧
        u.result = some { ev := some ⟨.rxMsg, node', some ⟨id, len⟩⟩ } ∧
        u.byteAt .rxb 0 = p0 ∧ (∀ j, j ≠ 0 → u.byteAt .rxb j = s.byteAt .rxb j)

/-- R140: `RX_FRAME` always completes with `SUCCESS`, writes no frame, has at most one event, of the four receive kinds, and
neither changes nor reads the transmit engine; the premise on `CTS` is R33 (b)'s. THE MODEL'S READING, DEDUCED (assumption
log 8): it does what the table's row for a frame of its four bytes does. The spec's own decisions (assumption log 9): D2
(the operation code), D9 (the event's node is the frame's). -/
def Obligations.RxFrameIsDecode : Prop :=
  ∀ (s : State) (node : Node) (b0 b1 b2 b3 : Byte),
    opCode (.rxFrame node b0 b1 b2 b3) = some 0x7 ∧
    exec (.rxFrame node b0 b1 b2 b3) s = exec (frameInstr node ⟨b0, b1, b2, b3⟩) s ∧
    ((s.rx.cstate = .cts → s.rx.len.toNat < s.params.maxSize) →
      ∃ t ev, exec (.rxFrame node b0 b1 b2 b3) s = .next t ∧ HostKept s t ∧ t.tx = s.tx ∧
        t.result = some { ev := ev } ∧
        (∀ tx, exec (.rxFrame node b0 b1 b2 b3) { s with tx := tx } = .next { t with tx := tx }) ∧
        (∀ e, ev = some e → e.node = node ∧
          (e.kind = .rxMsg ∨ e.kind = .rxSnError ∨ e.kind = .rxExceededCapacity ∨ e.kind = .rxInvalidFrame)))

/-- R142: `RX_READ`. Inside the buffer it answers the byte there; outside it answers `FAILED`. The engines do not change.
THE MODEL'S CHOICE (assumption log 4): a failed read has a data output, of which nothing is said. The spec's own decisions
(assumption log 9): D2 (the operation code), D24 (the operation itself). -/
def Obligations.RxReadReadsReceiveBuffer : Prop :=
  ∀ (s : State) (i : Index),
    opCode (.rxRead i) = some 0x9 ∧
    (i.toNat < s.params.maxSize →
      exec (.rxRead i) s = .next { s with result := some { data := some (s.byteAt .rxb i.toNat) } }) ∧
    (s.params.maxSize ≤ i.toNat →
      ∃ t d, exec (.rxRead i) s = .next t ∧ t.result = some { status := .failed, data := some d } ∧
        t.params = s.params ∧ t.tx = s.tx ∧ t.rx = s.rx ∧ t.requests = s.requests)

/-- R145: the node of an inbound frame is copied into the event and is otherwise neither stored nor compared. The spec's own
decisions (assumption log 9): D9 (all of it). -/
def Obligations.SenderOnlyNamesTheEvent : Prop :=
  ∀ (s t : State) (n n' : Node) (b0 b1 b2 b3 : Byte), exec (.rxFrame n b0 b1 b2 b3) s = .next t →
    ∃ t', exec (.rxFrame n' b0 b1 b2 b3) s = .next t' ∧ t'.rx = t.rx ∧ t'.tx = t.tx ∧
      (∀ r e, t.result = some r → r.ev = some e → e.node = n ∧ t'.result = some { r with ev := some { e with node := n' } }) ∧
      (∀ r, t.result = some r → r.ev = none → t'.result = some r)

/-- R79: the receiver never reads a pad byte. A CF with `n` payload bytes does the same whatever its bytes after the `n`-th
are, and so does an SF of length 0 whatever its last byte is. The number `n` is the spec's derivation in R108. The spec's
own decisions (assumption log 9): D20 (`max(0, ...)` in that number). -/
def Obligations.PadBytesAreNotRead : Prop :=
  ∀ (s : State) (node : Node) (low6 : BitVec 6) (a b c b' c' : Byte),
    (s.rx.len.toNat ≤ s.rx.cursor.toNat + 2 → exec (.cf node low6 a b c) s = exec (.cf node low6 a b c') s) ∧
    (s.rx.len.toNat ≤ s.rx.cursor.toNat + 1 → exec (.cf node low6 a b c) s = exec (.cf node low6 a b' c') s) ∧
    exec (.sf node low6 0#16 a) s = exec (.sf node low6 0#16 b) s

/-- R146, R143: an operation that is neither an inbound frame nor `RX_RESET` nor `RESET` leaves the receive engine as it is:
an abandoned reassembly never ends by itself. The spec's own decisions (assumption log 9): D22 (no receive timeout). -/
def Obligations.OnlyFramesAndResetsMoveRx : Prop :=
  ∀ (i : Instr) (s t : State), isInbound i = false → i ≠ .rxReset → i ≠ .reset → exec i s = .next t → t.rx = s.rx

/-! ### Events, status codes, and what an operation leaves alone -/

/-- R88, R171: which operation raises which kind of event, and the kinds' numbers. The spec's own decisions (assumption log
9): D3 (the numbers), D16 (`FAILURE` from `TICK`). -/
def Obligations.EventsByOperation : Prop :=
  (∀ (i : Instr) (s t : State) (r : Result) (e : Event), exec i s = .next t → t.result = some r → r.ev = some e →
    match e.kind with
    | .rxMsg | .rxSnError | .rxExceededCapacity | .rxInvalidFrame => isInbound i = true
    | .txDone => ∃ now wrOk, i = .tick now wrOk
    | .txTimeout => (∃ now wrOk, i = .tick now wrOk) ∨ i = .txTimeoutEvt
    | .failure => (∃ now wrOk, i = .tick now wrOk) ∨ i = .txIoError) ∧
  [EventKind.rxMsg, .rxSnError, .rxExceededCapacity, .rxInvalidFrame, .txDone, .txTimeout, .failure].map eventCode =
    [0, 1, 2, 3, 4, 5, 6]

/-- R87, R172: which operation returns which status, the status being there after every operation, and the numbers. The
spec's own decisions (assumption log 9): D4 (the numbers), D16 (a refused CF in `TICK`), D18 (no `FAILED` from `TICK`), D24
(`FAILED` from `RX_READ`), D25 (`FAILED` from the reserved codes). -/
def Obligations.StatusesByOperation : Prop :=
  (∀ (i : Instr) (s t : State), exec i s = .next t → ∃ r, t.result = some r ∧
    match r.status with
    | .success => i ∉ [Instr.reservedB, .reservedC, .reservedD, .reservedE, .reservedF]
    | .failed => (∃ id len payload node now wrOk, i = .txSend id len payload node now wrOk ∧ s.tx.state = .busy) ∨
        (∃ idx, i = .rxRead idx ∧ s.params.maxSize ≤ idx.toNat) ∨
        i ∈ [Instr.reservedB, .reservedC, .reservedD, .reservedE, .reservedF]
    | .exceededCapacity => ∃ id len payload node now wrOk, i = .txSend id len payload node now wrOk ∧
        s.tx.state = .idle ∧ s.params.maxSize ≤ len.toNat
    | .mboxWriteFailed => (∃ id len payload node now, i = .txSend id len payload node now false) ∨
        (∃ now, i = .tick now false)
    | .mboxReadFailed => False) ∧
  [Status.success, .failed, .exceededCapacity, .mboxWriteFailed, .mboxReadFailed].map statusCode = [0, 1, 2, 3, 4]

/-- R177, R171: an event leaves the engine concerned in its reset state and the other engine as it was. The spec's own
decisions (assumption log 9): D13 (a reset clears `tx_ack`). -/
def Obligations.EventLeavesEngineAtRest : Prop :=
  ∀ (i : Instr) (s t : State) (r : Result) (e : Event), exec i s = .next t → t.result = some r → r.ev = some e →
    match e.kind with
    | .rxMsg | .rxSnError | .rxExceededCapacity | .rxInvalidFrame => RxAtRest t.rx ∧ t.tx = s.tx
    | .txDone | .txTimeout | .failure => TxAtRest t.tx ∧ t.rx = s.rx

/-- R174: the fields of an event. The spec's own decisions (assumption log 9): D9 (the event's node is the frame's), D21
(the fields of the event). -/
def Obligations.EventFields : Prop :=
  ∀ (i : Instr) (s t : State) (r : Result) (e : Event), exec i s = .next t → t.result = some r → r.ev = some e →
    match e.kind with
    | .rxMsg => inboundNode i = some e.node ∧ e.msg = some ⟨t.rx.id, t.rx.len⟩
    | .rxSnError | .rxExceededCapacity | .rxInvalidFrame => inboundNode i = some e.node ∧ e.msg = none
    | .txDone | .txTimeout | .failure => e.node = s.tx.node ∧ e.msg = none

/-- R20: the two engines share no state. An operation of one engine leaves the other as it is, and does the same whatever the
other is. -/
def Obligations.EnginesShareNoState : Prop :=
  ∀ (i : Instr) (s t : State), exec i s = .next t →
    (isTxOp i = true → t.rx = s.rx ∧ ∀ rx, exec i { s with rx := rx } = .next { t with rx := rx }) ∧
    (isRxOp i = true → t.tx = s.tx ∧ ∀ tx, exec i { s with tx := tx } = .next { t with tx := tx })

/-- R27: no operation and no step changes the parameters. -/
def Obligations.ParametersAreConstant : Prop :=
  (∀ (i : Instr) (s t : State), exec i s = .next t → t.params = s.params) ∧
  (∀ s t : State, step s = .next t → t.params = s.params)

/-- R51: nothing writes `TXB` except `TX_SEND`, and nothing writes `RXB` except an inbound frame; an accepted `TX_SEND`
writes `TXB[0..len-1]` alone. The spec marks R51 as derived. -/
def Obligations.BuffersWrittenByTheirOperations : Prop :=
  ∀ (i : Instr) (s t : State), exec i s = .next t →
    (isInbound i = false → t.rx.buf = s.rx.buf) ∧
    (∀ j, t.byteAt .txb j ≠ s.byteAt .txb j →
      ∃ id len payload node now wrOk, i = .txSend id len payload node now wrOk ∧ j < len.toNat)

/-- R63: the payload of a message received stays until the next receive begins. In `INIT`, where a delivery leaves the
engine, only an SF with `1 <= len < MAX_SIZE` or an FF with `len < MAX_SIZE` writes `RXB`. The spec marks R63 as derived. -/
def Obligations.ReceivedPayloadStays : Prop :=
  ∀ (i : Instr) (s t : State), s.rx.cstate = .init → exec i s = .next t →
    (match asFrame i with
      | .sf _ _ len _ => len.toNat = 0 ∨ s.params.maxSize ≤ len.toNat
      | .ff _ _ len _ => s.params.maxSize ≤ len.toNat
      | _ => True) →
    t.rx.buf = s.rx.buf

/-! ### Buffers -/

/-- R54: `BufWrite` sets one byte, for an index below `MAX_SIZE`, and changes no other byte; and R53: `BufRead` answers for
an index below `MAX_SIZE`. THE MODEL'S CHOICE, DEDUCED (assumption log 7): at another index, where R53 and R54 give no
meaning, both stop with a fault. -/
def Obligations.BufWriteSetsOneByte : Prop :=
  ∀ (sp : Space) (i : Nat) (v : Byte) (s : State),
    (i < s.params.maxSize → ∃ t, bufWrite sp i v s = .ok t ∧ bufRead sp i t = .ok v ∧
      (∀ j, j ≠ i → t.byteAt sp j = s.byteAt sp j) ∧ (∀ sp', sp' ≠ sp → t.bufOf sp' = s.bufOf sp')) ∧
    (s.params.maxSize ≤ i → bufWrite sp i v s = .error (.bufferIndex sp i) ∧ bufRead sp i s = .error (.bufferIndex sp i))

/-- R50, R33 (c): every step keeps both buffers within `MAX_SIZE` bytes, from any state, reached or not. THE MODEL'S CHOICE
(assumption log 3): a buffer is a list whose canonical form, strictly rising indices, every step keeps too; the spec says
nothing of it. -/
def Obligations.StepKeepsBuffers : Prop :=
  ∀ s t : State, Buffers s → step s = .next t → Buffers t

/-! ### The machine -/

/-- A step carries out the instruction that the next request is (R60, R90): it is `exec` of that instruction at the state
without the request. THE MODEL'S CHOICE (assumption logs 1 and 2): the list of requests, and their bytes. -/
def Obligations.StepRunsDecodedInstruction : Prop :=
  ∀ (s : State) (r : Request) (rs : List Request) (i : Instr), s.requests = r :: rs → decode r = .ok i →
    step s = exec i { s with requests := rs }

/-- THE MODEL'S CHOICE (assumption log 1): without a request a step changes nothing, and bytes that are no instruction are
refused by name. -/
def Obligations.StepWithoutInstruction : Prop :=
  ∀ s : State,
    (s.requests = [] → step s = .next s) ∧
    (∀ r rs e, s.requests = r :: rs → decode r = .error e → step s = .refused (.undecodable e))

/-- THE MODEL'S CHOICE (assumption logs 1 and 2): a table-numbered word that the decoder reads is what the next step runs,
at the state it was placed in. -/
def Obligations.PlacedWordRunsNext : Prop :=
  ∀ (s : State) (nbits w : Nat) (i : Instr), decodeTableWord nbits w = some i → step (s.withFetchWord nbits w) = exec i s

/-! ### Invariants -/

/-- R32 and R33 hold at reset. THE MODEL'S CHOICE (assumption log 3): the canonical form of the buffers, which `BlockInv`
holds beside the rules. The spec's own decisions (assumption log 9): D13 (a reset clears `tx_ack`), D23 (what `RESET` stands
for). -/
def Obligations.InvariantAtReset : Prop := BlockInv State.reset

/-- R200, R202: `RESET` makes R32 and R33 hold from any power-on state, whatever its fields are. THE MODEL'S CHOICE
(assumption log 3): the canonical form of the buffers, which `BlockInv` holds beside the rules. The spec's own decisions
(assumption log 9): D13 (a reset clears `tx_ack`), D23 (power-on and `RESET`). -/
def Obligations.InvariantFromPowerOn : Prop :=
  ∀ s : State, PowerOn s → ∃ t, exec .reset s = .next t ∧ BlockInv t

/-- R32 and R33: every step keeps the invariants, from every state that has them. The spec marks both rules as derived. THE
MODEL'S CHOICE (assumption log 3): the canonical form of the buffers, which `BlockInv` holds beside the rules. The spec's
own decisions (assumption log 9): D13 (a reset clears `tx_ack`), D12 (R32 (d)), D20 (the malformed First Frame of R33 (b)).
-/
def Obligations.StepKeepsInvariant : Prop :=
  ∀ s t : State, BlockInv s → step s = .next t → BlockInv t

/-- R32, R33, R200: every reachable state has the invariants. The spec marks R32 and R33 as derived. THE MODEL'S CHOICE
(assumption log 3): the canonical form of the buffers, which `BlockInv` holds beside the rules. The spec's own decisions
(assumption log 9): D13 (a reset clears `tx_ack`), D12 (R32 (d)), D20 (the malformed First Frame of R33 (b)), D23 (what is
reachable). -/
def Obligations.ReachableStatesSatisfyInvariant : Prop := ∀ s : State, Reachable s → BlockInv s

/-- R218, R140, R121: in a state that has the invariants no step faults, and a request that is an instruction is carried
out: the step answers a next state with the outputs of the operation, the request gone. THE MODEL'S CHOICE: the list of
requests and the outputs kept in the state (assumption log 1), and the fault that is ruled out (log 7). -/
def Obligations.EveryOperationCompletes : Prop :=
  ∀ s : State, BlockInv s →
    (∀ f, step s ≠ .fault f) ∧
    (∀ r rs i, s.requests = r :: rs → decode r = .ok i →
      ∃ t, step s = .next t ∧ t.requests = rs ∧ t.result.isSome = true)

/-! ### Encodings -/

/-- R90, R85, R86, R72 to R74: decoding the encoding of a well-formed instruction gives it back, with every operand at every
value. THE MODEL'S CHOICE (assumption log 2): the bytes of an operation's arguments. The spec's own decisions (assumption
log 9): D2 (the operation codes), D7, D9, D24 (the widths of `now`, `node` and `i`). -/
def Obligations.DecodeOfEncode : Prop := ∀ i : Instr, wellFormed i = true → decode (encode i) = .ok i

/-- R86, R90, the other direction: a request that decodes is the encoding of what it decodes to, which is well formed. So no
two requests are one instruction, and no bit of a request is dropped. THE MODEL'S CHOICE (assumption log 2): the bytes of an
operation's arguments, and the rejection of bits beyond an argument's width. The spec's own decisions (assumption log 9): D2
(the operation codes), D7, D9, D24 (the widths of `now`, `node` and `i`). -/
def Obligations.EncodeOfDecode : Prop :=
  ∀ (r : Request) (i : Instr), decode r = .ok i → wellFormed i = true ∧ encode i = r

/-- R75: the length field, both ways. -/
def Obligations.LengthIsBigEndian : Prop :=
  (∀ hi lo : Byte, (word16 hi lo).toNat = hi.toNat * 256 + lo.toNat) ∧
  (∀ len : Length, (hiByte len).toNat = len.toNat / 256 ∧ (loByte len).toNat = len.toNat % 256 ∧
    word16 (hiByte len) (loByte len) = len)

/-- R70, R71, R76: byte 0 of a frame, both ways. -/
def Obligations.HeaderByteFields : Prop :=
  (∀ (t : FrameType) (low6 : BitVec 6), (headerByte t low6).toNat = ftypeCode t * 64 + low6.toNat ∧
    ftypeOf (headerByte t low6) = t ∧ low6Of (headerByte t low6) = low6) ∧
  (∀ f0 : Byte, ftypeCode (ftypeOf f0) = f0.toNat / 64 ∧ (low6Of f0).toNat = f0.toNat % 64) ∧
  [FrameType.ff, .cf, .sf].map ftypeCode = [0, 1, 2]

/-- Words written out from the encodings of R72 to R74, R78 and R85, as the table numbers them, decode to the instruction
they stand for. THE MODEL'S CHOICE (assumption log 2): the operands to which the table gives no bits are 0. The spec's own
decisions (assumption log 9): D2 (the operation codes), D11 (the word view of a frame). -/
def Obligations.WrittenOutWordsDecode : Prop :=
  decodeTableWord 32 0x05000710 = some (.ff 0 5#6 7#16 0x10#8) ∧
  decodeTableWord 32 0x41111213 = some (.cf 0 1#6 0x11#8 0x12#8 0x13#8) ∧
  decodeTableWord 32 0x890001AB = some (.sf 0 9#6 1#16 0xAB#8) ∧
  decodeTableWord 32 0xFF123456 = some (.ft3 0 63#6 0x12#8 0x34#8 0x56#8) ∧
  decodeTableWord 8 0x1 = some (.txSend 0 0 [] 0 0 false) ∧
  decodeTableWord 8 0x3 = some (.tick 0 false) ∧
  decodeTableWord 8 0x9 = some (.rxRead 0) ∧
  decodeTableWord 8 0xB = some .reservedB

/-! ### A whole message -/

/-- R114: the frames of a message. A transmit engine at rest that is given a message within the capacity, every frame being
acknowledged, writes exactly the frames of the closed form, and reports `TX_DONE` once, at the end. The spec marks R114 as
derived. The spec's own decisions (assumption log 9): D10 (the pad bytes), D12 (which acknowledgment is final), D13 (a reset
clears `tx_ack`), D21 (the fields of the event). -/
def Obligations.SentFramesAreTheClosedForm : Prop :=
  ∀ (s : State) (id : MsgId) (len : Length) (payload : List Byte) (node : Node) (now : Time) (times : List Time),
    TxAtRest s.tx → len.toNat < s.params.maxSize → payload.length = len.toNat →
    times.length = 1 + cfTotal len.toNat →
      ∃ rs t, issue (sendOps id len payload node now times) s = some (rs, t) ∧
        framesWritten rs = closedFrames s.params.pad id payload ∧
        rs.filterMap (fun r => r.ev) = [⟨.txDone, node, none⟩] ∧
        (∃ r, rs.getLast? = some r ∧ r.ev = some ⟨.txDone, node, none⟩) ∧
        TxAtRest t.tx ∧ t.rx = s.rx

/-- R113: round trip. A transmit engine at rest is given a message with every frame acknowledged, and its frames are fed, in
order, to a receive engine at rest, of the same `MAX_SIZE`: exactly one event, `RX_MSG` at the last frame, with the same id
and length, and the payload in `RXB`. The spec marks R113 as derived; its bound is conflict C1's. The spec's own decisions
(assumption log 9): D5 (the bound), D9 (the event's node is the frame's). -/
def Obligations.RoundTrip : Prop :=
  ∀ (a b : State) (id : MsgId) (len : Length) (payload : List Byte) (dest src : Node) (now : Time) (times : List Time),
    TxAtRest a.tx → RxAtRest b.rx → b.params.maxSize = a.params.maxSize →
    len.toNat < a.params.maxSize → payload.length = len.toNat → times.length = 1 + cfTotal len.toNat →
      ∃ rs a' es b', issue (sendOps id len payload dest now times) a = some (rs, a') ∧
        issue ((framesWritten rs).map (loopFrame src)) b = some (es, b') ∧
        es.map (fun r => r.ev) =
          List.replicate (cfTotal len.toNat) none ++ [some ⟨.rxMsg, src, some ⟨id, len⟩⟩] ∧
        RxAtRest b'.rx ∧ b'.tx = b.tx ∧
        (∀ j, j < len.toNat → payload[j]? = some (b'.byteAt .rxb j))

/-- R113's step, as a simulation: a sender and a receiver in the middle of one message, the receiver having got every byte
sent so far. One acknowledged `TICK` and its frame, and either both are again so, or the message is complete and whole. The
spec marks R113 as derived. THE MODEL'S CHOICE (assumption log 3): the canonical form of the buffers, which `BlockInv` holds
beside the rules. The spec's own decisions (assumption log 9): D9 (the event's node is the frame's). -/
def Obligations.LinkStepKeepsAgreement : Prop :=
  ∀ (a b : State) (src : Node) (now : Time),
    BlockInv a → BlockInv b → a.tx.state = .busy → a.tx.cstate = .cts → b.rx.cstate = .cts →
    b.rx.id = a.tx.id → b.rx.len = a.tx.len → b.rx.cursor = a.tx.cursor → b.rx.seq = a.tx.seq →
    (∀ j, j < a.tx.cursor.toNat → b.byteAt .rxb j = a.byteAt .txb j) →
      ∃ rs a' r b', issue (ackTick now true) a = some (rs, a') ∧
        issue ((framesWritten rs).map (loopFrame src)) b = some ([r], b') ∧
        a'.tx.buf = a.tx.buf ∧
        ((r.ev = none ∧ a'.tx.cstate = .cts ∧ b'.rx.cstate = .cts ∧ b'.rx.cursor = a'.tx.cursor ∧
            b'.rx.seq = a'.tx.seq ∧ b'.rx.len = a'.tx.len ∧ b'.rx.id = a'.tx.id ∧
            (∀ j, j < a'.tx.cursor.toNat → b'.byteAt .rxb j = a'.byteAt .txb j)) ∨
          (r.ev = some ⟨.rxMsg, src, some ⟨a.tx.id, a.tx.len⟩⟩ ∧ a'.tx.cstate = .init ∧ RxAtRest b'.rx ∧
            (∀ j, j < a.tx.len.toNat → b'.byteAt .rxb j = a.byteAt .txb j)))
end

