-- ==== Sys2Proof/Laws/Fields.lean ====
section
/-!
SUPPORT. The fields of a frame and of an argument, read and written: each assembly is undone by its extraction.
-/
namespace Sys2Proof

@[simp] theorem hiByte_toNat (w : BitVec 16) : (hiByte w).toNat = w.toNat / 256 := by
  have h := w.isLt
  simp only [hiByte, BitVec.extractLsb'_toNat, Nat.shiftRight_eq_div_pow]
  omega

@[simp] theorem loByte_toNat (w : BitVec 16) : (loByte w).toNat = w.toNat % 256 := by
  simp [loByte, BitVec.extractLsb'_toNat]

@[simp] theorem word16_toNat (hi lo : Byte) : (word16 hi lo).toNat = hi.toNat * 256 + lo.toNat := by
  have h := hi.isLt
  have l := lo.isLt
  simp only [word16, BitVec.toNat_ofNat]
  omega

@[simp] theorem word16_hiByte_loByte (w : BitVec 16) : word16 (hiByte w) (loByte w) = w := by
  apply BitVec.eq_of_toNat_eq
  simp only [word16_toNat, hiByte_toNat, loByte_toNat]
  omega

@[simp] theorem hiByte_word16 (hi lo : Byte) : hiByte (word16 hi lo) = hi := by
  apply BitVec.eq_of_toNat_eq
  have l := lo.isLt
  simp only [word16_toNat, hiByte_toNat]
  omega

@[simp] theorem loByte_word16 (hi lo : Byte) : loByte (word16 hi lo) = lo := by
  apply BitVec.eq_of_toNat_eq
  have l := lo.isLt
  simp only [word16_toNat, loByte_toNat]
  omega

@[simp] theorem hiHalf_toNat (w : BitVec 32) : (hiHalf w).toNat = w.toNat / 65536 := by
  have h := w.isLt
  simp only [hiHalf, BitVec.extractLsb'_toNat, Nat.shiftRight_eq_div_pow]
  omega

@[simp] theorem loHalf_toNat (w : BitVec 32) : (loHalf w).toNat = w.toNat % 65536 := by
  simp [loHalf, BitVec.extractLsb'_toNat]

@[simp] theorem word32_toNat (hi lo : BitVec 16) : (word32 hi lo).toNat = hi.toNat * 65536 + lo.toNat := by
  have h := hi.isLt
  have l := lo.isLt
  simp only [word32, BitVec.toNat_ofNat]
  omega

@[simp] theorem word32_hiHalf_loHalf (w : BitVec 32) : word32 (hiHalf w) (loHalf w) = w := by
  apply BitVec.eq_of_toNat_eq
  simp only [word32_toNat, hiHalf_toNat, loHalf_toNat]
  omega

@[simp] theorem hiHalf_word32 (hi lo : BitVec 16) : hiHalf (word32 hi lo) = hi := by
  apply BitVec.eq_of_toNat_eq
  have l := lo.isLt
  simp only [word32_toNat, hiHalf_toNat]
  omega

@[simp] theorem loHalf_word32 (hi lo : BitVec 16) : loHalf (word32 hi lo) = lo := by
  apply BitVec.eq_of_toNat_eq
  have l := lo.isLt
  simp only [word32_toNat, loHalf_toNat]
  omega

theorem ftypeCode_lt (t : FrameType) : ftypeCode t < 4 := by cases t <;> decide

@[simp] theorem headerByte_toNat (t : FrameType) (low6 : BitVec 6) :
    (headerByte t low6).toNat = ftypeCode t * 64 + low6.toNat := by
  have h := low6.isLt
  have c := ftypeCode_lt t
  simp only [headerByte, BitVec.toNat_ofNat]
  omega

@[simp] theorem low6Of_toNat (f0 : Byte) : (low6Of f0).toNat = f0.toNat % 64 := by
  simp [low6Of, BitVec.extractLsb'_toNat]

/-- The frame type is the top two bits (R70). -/
theorem ftypeCode_ftypeOf (f0 : Byte) : ftypeCode (ftypeOf f0) = f0.toNat / 64 := by
  have h := f0.isLt
  have e : (f0.extractLsb' 6 2).toNat = f0.toNat / 64 := by
    simp only [BitVec.extractLsb'_toNat, Nat.shiftRight_eq_div_pow]
    omega
  have b : f0.toNat / 64 < 4 := by omega
  unfold ftypeOf
  rw [e]
  generalize f0.toNat / 64 = q at b
  match q, b with
  | 0, _ => rfl
  | 1, _ => rfl
  | 2, _ => rfl
  | 3, _ => rfl

theorem ftypeCode_injective {t u : FrameType} (h : ftypeCode t = ftypeCode u) : t = u := by
  cases t <;> cases u <;> first | rfl | (simp [ftypeCode] at h)

@[simp] theorem ftypeOf_headerByte (t : FrameType) (low6 : BitVec 6) : ftypeOf (headerByte t low6) = t := by
  apply ftypeCode_injective
  have h := low6.isLt
  rw [ftypeCode_ftypeOf, headerByte_toNat]
  omega

@[simp] theorem low6Of_headerByte (t : FrameType) (low6 : BitVec 6) : low6Of (headerByte t low6) = low6 := by
  apply BitVec.eq_of_toNat_eq
  have h := low6.isLt
  rw [low6Of_toNat, headerByte_toNat]
  omega

@[simp] theorem headerByte_ftypeOf_low6Of (f0 : Byte) : headerByte (ftypeOf f0) (low6Of f0) = f0 := by
  apply BitVec.eq_of_toNat_eq
  rw [headerByte_toNat, ftypeCode_ftypeOf, low6Of_toNat]
  omega

@[simp] theorem decodeBit_bitByte (b : Bool) : decodeBit (bitByte b) = .ok b := by cases b <;> rfl

@[simp] theorem low6Of_setWidth (id : BitVec 6) : low6Of (id.setWidth 8) = id := by
  apply BitVec.eq_of_toNat_eq
  have h := id.isLt
  rw [low6Of_toNat, BitVec.toNat_setWidth]
  omega

end Sys2Proof

namespace Sys2Proof.Machine

/-- A sequence counter counts modulo 64 (R35). -/
@[simp] theorem nextSeq_toNat (seq : SeqNo) : (nextSeq seq).toNat = (seq.toNat + 1) % 64 := by
  simp only [nextSeq, BitVec.toNat_ofNat]
  omega

theorem nextSeq_eq_add (seq : SeqNo) : nextSeq seq = seq + 1#6 := by
  apply BitVec.eq_of_toNat_eq
  rw [nextSeq_toNat, BitVec.toNat_add]
  rfl

theorem cfCount_le_three (len : Length) (cursor : Cursor) : cfCount len cursor ≤ 3 := by
  unfold cfCount; omega

/-- The transmit cursor after a CF, over the integers: no wrap (R112). -/
@[simp] theorem txCursorAfter_toNat (len : Length) (cursor : Cursor) :
    (txCursorAfter len cursor).toNat = min (cursor.toNat + 3) len.toNat := by
  have h := len.isLt
  simp only [txCursorAfter, BitVec.toNat_ofNat]
  omega

/-- The receive cursor after a CF, over the integers: no wrap (R112). -/
@[simp] theorem rxCursorAfter_toNat (len : Length) (cursor : Cursor) :
    (rxCursorAfter len cursor).toNat = cursor.toNat + cfCount len cursor := by
  have h := len.isLt
  have c := cursor.isLt
  simp only [rxCursorAfter, BitVec.toNat_ofNat, cfCount]
  omega

@[simp] theorem cfPayload_length (n : Nat) (a b c : Byte) : (cfPayload n a b c).length = min n 3 := by
  simp [cfPayload]

/-- The elapsed time over the integers (R128). -/
theorem elapsed_eq (now stamp : Time) : elapsed now stamp = (now.toNat + 2 ^ 32 - stamp.toNat) % 2 ^ 32 := by
  have h := now.isLt
  have c := stamp.isLt
  simp only [elapsed, BitVec.toNat_sub]
  omega

end Sys2Proof.Machine
end

