-- ==== Sys2Proof/Laws/State.lean ====
section
/-!
SUPPORT. One lemma per field per update of the state and of the two engines, so that no later proof unfolds an update.
-/
namespace Sys2Proof.Machine

/-! ### `setTx`, `setRx`, `setResult` -/

@[simp] theorem State.setTx_params (s : State) (t : TxEngine) : (s.setTx t).params = s.params := rfl
@[simp] theorem State.setTx_tx (s : State) (t : TxEngine) : (s.setTx t).tx = t := rfl
@[simp] theorem State.setTx_rx (s : State) (t : TxEngine) : (s.setTx t).rx = s.rx := rfl
@[simp] theorem State.setTx_requests (s : State) (t : TxEngine) : (s.setTx t).requests = s.requests := rfl
@[simp] theorem State.setTx_result (s : State) (t : TxEngine) : (s.setTx t).result = s.result := rfl
@[simp] theorem State.setTx_freeDraws (s : State) (t : TxEngine) : (s.setTx t).freeDraws = s.freeDraws := rfl

@[simp] theorem State.setRx_params (s : State) (r : RxEngine) : (s.setRx r).params = s.params := rfl
@[simp] theorem State.setRx_tx (s : State) (r : RxEngine) : (s.setRx r).tx = s.tx := rfl
@[simp] theorem State.setRx_rx (s : State) (r : RxEngine) : (s.setRx r).rx = r := rfl
@[simp] theorem State.setRx_requests (s : State) (r : RxEngine) : (s.setRx r).requests = s.requests := rfl
@[simp] theorem State.setRx_result (s : State) (r : RxEngine) : (s.setRx r).result = s.result := rfl
@[simp] theorem State.setRx_freeDraws (s : State) (r : RxEngine) : (s.setRx r).freeDraws = s.freeDraws := rfl

@[simp] theorem State.setResult_params (s : State) (r : Result) : (s.setResult r).params = s.params := rfl
@[simp] theorem State.setResult_tx (s : State) (r : Result) : (s.setResult r).tx = s.tx := rfl
@[simp] theorem State.setResult_rx (s : State) (r : Result) : (s.setResult r).rx = s.rx := rfl
@[simp] theorem State.setResult_requests (s : State) (r : Result) : (s.setResult r).requests = s.requests := rfl
@[simp] theorem State.setResult_result (s : State) (r : Result) : (s.setResult r).result = some r := rfl
@[simp] theorem State.setResult_freeDraws (s : State) (r : Result) : (s.setResult r).freeDraws = s.freeDraws := rfl

/-! ### `setBuf` -/

@[simp] theorem State.setBuf_params (s : State) (sp : Space) (m : Memory) : (s.setBuf sp m).params = s.params := by
  cases sp <;> rfl
@[simp] theorem State.setBuf_requests (s : State) (sp : Space) (m : Memory) : (s.setBuf sp m).requests = s.requests := by
  cases sp <;> rfl
@[simp] theorem State.setBuf_result (s : State) (sp : Space) (m : Memory) : (s.setBuf sp m).result = s.result := by
  cases sp <;> rfl
@[simp] theorem State.setBuf_freeDraws (s : State) (sp : Space) (m : Memory) : (s.setBuf sp m).freeDraws = s.freeDraws := by
  cases sp <;> rfl
@[simp] theorem State.setBuf_txb_tx (s : State) (m : Memory) : (s.setBuf .txb m).tx = { s.tx with buf := m } := rfl
@[simp] theorem State.setBuf_txb_rx (s : State) (m : Memory) : (s.setBuf .txb m).rx = s.rx := rfl
@[simp] theorem State.setBuf_rxb_tx (s : State) (m : Memory) : (s.setBuf .rxb m).tx = s.tx := rfl
@[simp] theorem State.setBuf_rxb_rx (s : State) (m : Memory) : (s.setBuf .rxb m).rx = { s.rx with buf := m } := rfl
@[simp] theorem State.bufOf_txb (s : State) : s.bufOf .txb = s.tx.buf := rfl
@[simp] theorem State.bufOf_rxb (s : State) : s.bufOf .rxb = s.rx.buf := rfl
@[simp] theorem State.bufOf_setBuf (s : State) (sp : Space) (m : Memory) : (s.setBuf sp m).bufOf sp = m := by
  cases sp <;> rfl
@[simp] theorem State.setBuf_setBuf (s : State) (sp : Space) (m m' : Memory) :
    (s.setBuf sp m).setBuf sp m' = s.setBuf sp m' := by
  cases sp <;> rfl
@[simp] theorem State.setBuf_bufOf (s : State) (sp : Space) : s.setBuf sp (s.bufOf sp) = s := by
  cases sp <;> rfl

/-- What a byte of a buffer is depends on that buffer only. -/
theorem State.byteAt_congr (s t : State) (sp : Space) (h : t.bufOf sp = s.bufOf sp) (i : Nat) :
    t.byteAt sp i = s.byteAt sp i := by
  unfold State.byteAt; rw [h]

/-! ### The reset functions (R30, R31) -/

@[simp] theorem txResetEngine_state (t : TxEngine) : (txResetEngine t).state = .idle := rfl
@[simp] theorem txResetEngine_cstate (t : TxEngine) : (txResetEngine t).cstate = .init := rfl
@[simp] theorem txResetEngine_seq (t : TxEngine) : (txResetEngine t).seq = 1#6 := rfl
@[simp] theorem txResetEngine_cursor (t : TxEngine) : (txResetEngine t).cursor = 0#16 := rfl
@[simp] theorem txResetEngine_ack (t : TxEngine) : (txResetEngine t).ack = false := rfl
@[simp] theorem txResetEngine_id (t : TxEngine) : (txResetEngine t).id = t.id := rfl
@[simp] theorem txResetEngine_len (t : TxEngine) : (txResetEngine t).len = t.len := rfl
@[simp] theorem txResetEngine_node (t : TxEngine) : (txResetEngine t).node = t.node := rfl
@[simp] theorem txResetEngine_buf (t : TxEngine) : (txResetEngine t).buf = t.buf := rfl
@[simp] theorem txResetEngine_stamp (t : TxEngine) : (txResetEngine t).stamp = t.stamp := rfl

@[simp] theorem rxResetEngine_cstate (r : RxEngine) : (rxResetEngine r).cstate = .init := rfl
@[simp] theorem rxResetEngine_busy (r : RxEngine) : (rxResetEngine r).busy = .rxIdle := rfl
@[simp] theorem rxResetEngine_seq (r : RxEngine) : (rxResetEngine r).seq = 1#6 := rfl
@[simp] theorem rxResetEngine_cursor (r : RxEngine) : (rxResetEngine r).cursor = 0#16 := rfl
@[simp] theorem rxResetEngine_id (r : RxEngine) : (rxResetEngine r).id = r.id := rfl
@[simp] theorem rxResetEngine_len (r : RxEngine) : (rxResetEngine r).len = r.len := rfl
@[simp] theorem rxResetEngine_buf (r : RxEngine) : (rxResetEngine r).buf = r.buf := rfl

@[simp] theorem resetTx_params (s : State) : (resetTx s).params = s.params := rfl
@[simp] theorem resetTx_tx (s : State) : (resetTx s).tx = txResetEngine s.tx := rfl
@[simp] theorem resetTx_rx (s : State) : (resetTx s).rx = s.rx := rfl
@[simp] theorem resetTx_requests (s : State) : (resetTx s).requests = s.requests := rfl
@[simp] theorem resetTx_result (s : State) : (resetTx s).result = s.result := rfl
@[simp] theorem resetTx_freeDraws (s : State) : (resetTx s).freeDraws = s.freeDraws := rfl

@[simp] theorem resetRx_params (s : State) : (resetRx s).params = s.params := rfl
@[simp] theorem resetRx_tx (s : State) : (resetRx s).tx = s.tx := rfl
@[simp] theorem resetRx_rx (s : State) : (resetRx s).rx = rxResetEngine s.rx := rfl
@[simp] theorem resetRx_requests (s : State) : (resetRx s).requests = s.requests := rfl
@[simp] theorem resetRx_result (s : State) : (resetRx s).result = s.result := rfl
@[simp] theorem resetRx_freeDraws (s : State) : (resetRx s).freeDraws = s.freeDraws := rfl

/-! ### Raising an event (R177): one engine is reset, the other left, the event an output -/

@[simp] theorem raiseEvent_params (sp : Space) (e : Event) (st : Status) (w : Option FrameWrite) (s : State) :
    (raiseEvent sp e st w s).params = s.params := by cases sp <;> rfl
@[simp] theorem raiseEvent_requests (sp : Space) (e : Event) (st : Status) (w : Option FrameWrite) (s : State) :
    (raiseEvent sp e st w s).requests = s.requests := by cases sp <;> rfl
@[simp] theorem raiseEvent_freeDraws (sp : Space) (e : Event) (st : Status) (w : Option FrameWrite) (s : State) :
    (raiseEvent sp e st w s).freeDraws = s.freeDraws := by cases sp <;> rfl
@[simp] theorem raiseEvent_result (sp : Space) (e : Event) (st : Status) (w : Option FrameWrite) (s : State) :
    (raiseEvent sp e st w s).result = some { status := st, wr := w, ev := some e } := rfl
@[simp] theorem raiseEvent_txb_tx (e : Event) (st : Status) (w : Option FrameWrite) (s : State) :
    (raiseEvent .txb e st w s).tx = txResetEngine s.tx := rfl
@[simp] theorem raiseEvent_txb_rx (e : Event) (st : Status) (w : Option FrameWrite) (s : State) :
    (raiseEvent .txb e st w s).rx = s.rx := rfl
@[simp] theorem raiseEvent_rxb_tx (e : Event) (st : Status) (w : Option FrameWrite) (s : State) :
    (raiseEvent .rxb e st w s).tx = s.tx := rfl
@[simp] theorem raiseEvent_rxb_rx (e : Event) (st : Status) (w : Option FrameWrite) (s : State) :
    (raiseEvent .rxb e st w s).rx = rxResetEngine s.rx := rfl

/-! ### Engine updates of the codec -/

@[simp] theorem rxTakeHeader_tx (id : MsgId) (len : Length) (s : State) : (rxTakeHeader id len s).tx = s.tx := rfl
@[simp] theorem rxTakeHeader_rx (id : MsgId) (len : Length) (s : State) :
    (rxTakeHeader id len s).rx = { rxResetEngine s.rx with id := id, len := len } := rfl
@[simp] theorem rxTakeHeader_params (id : MsgId) (len : Length) (s : State) :
    (rxTakeHeader id len s).params = s.params := rfl
@[simp] theorem rxTakeHeader_requests (id : MsgId) (len : Length) (s : State) :
    (rxTakeHeader id len s).requests = s.requests := rfl
@[simp] theorem rxTakeHeader_freeDraws (id : MsgId) (len : Length) (s : State) :
    (rxTakeHeader id len s).freeDraws = s.freeDraws := rfl

@[simp] theorem rxEnterCts_cstate (r : RxEngine) : (rxEnterCts r).cstate = .cts := rfl
@[simp] theorem rxEnterCts_busy (r : RxEngine) : (rxEnterCts r).busy = .rxBusy := rfl
@[simp] theorem rxEnterCts_cursor (r : RxEngine) : (rxEnterCts r).cursor = 1#16 := rfl
@[simp] theorem rxEnterCts_seq (r : RxEngine) : (rxEnterCts r).seq = r.seq := rfl
@[simp] theorem rxEnterCts_id (r : RxEngine) : (rxEnterCts r).id = r.id := rfl
@[simp] theorem rxEnterCts_len (r : RxEngine) : (rxEnterCts r).len = r.len := rfl
@[simp] theorem rxEnterCts_buf (r : RxEngine) : (rxEnterCts r).buf = r.buf := rfl

@[simp] theorem rxAfterCF_cstate (r : RxEngine) : (rxAfterCF r).cstate = r.cstate := rfl
@[simp] theorem rxAfterCF_busy (r : RxEngine) : (rxAfterCF r).busy = r.busy := rfl
@[simp] theorem rxAfterCF_seq (r : RxEngine) : (rxAfterCF r).seq = nextSeq r.seq := rfl
@[simp] theorem rxAfterCF_cursor (r : RxEngine) : (rxAfterCF r).cursor = rxCursorAfter r.len r.cursor := rfl
@[simp] theorem rxAfterCF_id (r : RxEngine) : (rxAfterCF r).id = r.id := rfl
@[simp] theorem rxAfterCF_len (r : RxEngine) : (rxAfterCF r).len = r.len := rfl
@[simp] theorem rxAfterCF_buf (r : RxEngine) : (rxAfterCF r).buf = r.buf := rfl

@[simp] theorem txAfterCF_state (t : TxEngine) : (txAfterCF t).state = t.state := rfl
@[simp] theorem txAfterCF_seq (t : TxEngine) : (txAfterCF t).seq = nextSeq t.seq := rfl
@[simp] theorem txAfterCF_cursor (t : TxEngine) : (txAfterCF t).cursor = txCursorAfter t.len t.cursor := rfl
@[simp] theorem txAfterCF_id (t : TxEngine) : (txAfterCF t).id = t.id := rfl
@[simp] theorem txAfterCF_len (t : TxEngine) : (txAfterCF t).len = t.len := rfl
@[simp] theorem txAfterCF_node (t : TxEngine) : (txAfterCF t).node = t.node := rfl
@[simp] theorem txAfterCF_buf (t : TxEngine) : (txAfterCF t).buf = t.buf := rfl
@[simp] theorem txAfterCF_ack (t : TxEngine) : (txAfterCF t).ack = t.ack := rfl
@[simp] theorem txAfterCF_stamp (t : TxEngine) : (txAfterCF t).stamp = t.stamp := rfl

end Sys2Proof.Machine
end

