-- ==== Sys2Proof/Laws/Memory.lean ====
section
/-!
SUPPORT. The laws of the buffers: a read after a write, the canonical form, and one lemma for each buffer operation that says
all it can do.
-/
namespace Sys2Proof.Machine

/-! ### One byte -/

@[simp] theorem memRead_nil (i : Nat) : memRead [] i = none := rfl

/-- A read after a write: the byte written, and every other index as before. -/
theorem memRead_memWrite (m : Memory) (i j : Nat) (v : Byte) :
    memRead (memWrite m i v) j = if j = i then some v else memRead m j := by
  induction m with
  | nil => simp [memWrite, memRead]
  | cons c m ih =>
    obtain ⟨a, w⟩ := c
    by_cases hlt : i < a
    · simp [memWrite, hlt, memRead]
    · by_cases heq : i = a
      · subst heq
        by_cases hj : j = i <;> simp [memWrite, memRead, hj]
      · by_cases hj : j = a
        · subst hj
          have hji : ¬ j = i := fun h => heq h.symm
          simp [memWrite, hlt, heq, memRead, hji]
        · simp [memWrite, hlt, heq, memRead, hj, ih]

theorem Memory.wfAbove_mono {m : Memory} {lo lo' : Nat} (h : lo' ≤ lo) (hm : Memory.wfAbove (some lo) m = true) :
    Memory.wfAbove (some lo') m = true := by
  cases m with
  | nil => rfl
  | cons c m =>
    simp only [Memory.wfAbove, Bool.and_eq_true, decide_eq_true_eq] at hm ⊢
    exact ⟨by omega, hm.2⟩

theorem memWrite_wfAbove (m : Memory) (lo i : Nat) (v : Byte) (hlo : lo < i)
    (hm : Memory.wfAbove (some lo) m = true) : Memory.wfAbove (some lo) (memWrite m i v) = true := by
  induction m generalizing lo with
  | nil => simp [memWrite, Memory.wfAbove, hlo]
  | cons c m ih =>
    obtain ⟨a, w⟩ := c
    simp only [Memory.wfAbove, Bool.and_eq_true, decide_eq_true_eq] at hm
    by_cases hlt : i < a
    · simp [memWrite, hlt, Memory.wfAbove, hlo, hm.2]
    · by_cases heq : i = a
      · subst heq
        simp [memWrite, Memory.wfAbove, hlo, hm.2]
      · simp only [memWrite, hlt, heq, if_false, Memory.wfAbove, Bool.and_eq_true, decide_eq_true_eq]
        exact ⟨hm.1, ih a (by omega) hm.2⟩

/-- A write keeps the canonical form. -/
theorem memWrite_wf (m : Memory) (i : Nat) (v : Byte) (hm : m.wf = true) : Memory.wf (memWrite m i v) = true := by
  cases m with
  | nil => simp [memWrite, Memory.wf, Memory.wfAbove]
  | cons c m =>
    obtain ⟨a, w⟩ := c
    simp only [Memory.wf, Memory.wfAbove] at hm
    by_cases hlt : i < a
    · simp [memWrite, hlt, Memory.wf, Memory.wfAbove, hm]
    · by_cases heq : i = a
      · subst heq
        simp [memWrite, Memory.wf, Memory.wfAbove, hm]
      · simp only [memWrite, hlt, heq, if_false, Memory.wf, Memory.wfAbove]
        exact memWrite_wfAbove m a i v (by omega) hm

/-- A write at an index that exists keeps every listed index one that exists. -/
theorem memWrite_within (n : Nat) (m : Memory) (i : Nat) (v : Byte) (hi : i < n) (hm : m.within n = true) :
    Memory.within n (memWrite m i v) = true := by
  induction m with
  | nil => simp [memWrite, Memory.within, hi]
  | cons c m ih =>
    obtain ⟨a, w⟩ := c
    simp only [Memory.within, List.all_cons, Bool.and_eq_true, decide_eq_true_eq] at hm ih
    by_cases hlt : i < a
    · simp [memWrite, hlt, Memory.within, hi, hm.1]
      simpa using hm.2
    · by_cases heq : i = a
      · subst heq
        simp [memWrite, Memory.within, hi]
        simpa using hm.2
      · simp only [memWrite, hlt, heq, if_false, Memory.within, List.all_cons, Bool.and_eq_true, decide_eq_true_eq]
        exact ⟨hm.1, ih hm.2⟩

/-! ### A run of bytes -/

@[simp] theorem memWriteAll_nil (m : Memory) (i : Nat) : memWriteAll m i [] = m := rfl
@[simp] theorem memWriteAll_cons (m : Memory) (i : Nat) (b : Byte) (bs : List Byte) :
    memWriteAll m i (b :: bs) = memWriteAll (memWrite m i b) (i + 1) bs := rfl

/-- A read after a run of writes: the bytes of the run at their indices, every other index as before. -/
theorem memRead_memWriteAll (bs : List Byte) (m : Memory) (i j : Nat) :
    memRead (memWriteAll m i bs) j = if i ≤ j ∧ j < i + bs.length then bs[j - i]? else memRead m j := by
  induction bs generalizing m i with
  | nil =>
    have h : ¬ (i ≤ j ∧ j < i + 0) := by omega
    simp only [memWriteAll_nil, List.length_nil, h, if_false]
  | cons b bs ih =>
    rw [memWriteAll_cons, ih, memRead_memWrite]
    by_cases hji : j = i
    · subst hji
      have h1 : ¬ (j + 1 ≤ j ∧ j < j + 1 + bs.length) := by omega
      have h2 : j ≤ j ∧ j < j + (b :: bs).length := by simp
      rw [if_neg h1, if_pos rfl, if_pos h2]
      simp
    · by_cases h : i + 1 ≤ j ∧ j < i + 1 + bs.length
      · have h2 : i ≤ j ∧ j < i + (b :: bs).length := by simp only [List.length_cons]; omega
        have h3 : j - i = (j - (i + 1)) + 1 := by omega
        rw [if_pos h, if_pos h2, h3]
        simp
      · have h2 : ¬ (i ≤ j ∧ j < i + (b :: bs).length) := by simp only [List.length_cons]; omega
        rw [if_neg h, if_neg hji, if_neg h2]

theorem memWriteAll_wf (bs : List Byte) (m : Memory) (i : Nat) (hm : m.wf = true) :
    Memory.wf (memWriteAll m i bs) = true := by
  induction bs generalizing m i with
  | nil => exact hm
  | cons b bs ih => exact ih _ _ (memWrite_wf m i b hm)

theorem memWriteAll_within (n : Nat) (bs : List Byte) (m : Memory) (i : Nat) (hi : i + bs.length ≤ n ∨ bs = [])
    (hm : m.within n = true) : Memory.within n (memWriteAll m i bs) = true := by
  induction bs generalizing m i with
  | nil => exact hm
  | cons b bs ih =>
    rcases hi with hi | hi
    · simp only [List.length_cons] at hi
      exact ih _ _ (Or.inl (by omega)) (memWrite_within n m i b (by omega) hm)
    · cases hi

/-! ### The buffer operations -/

/-- `BufRead` answers the byte at an index that exists, and only there. -/
theorem bufRead_eq_ok {sp : Space} {i : Nat} {s : State} {v : Byte} :
    bufRead sp i s = .ok v ↔ i < s.params.maxSize ∧ v = s.byteAt sp i := by
  by_cases h : i < s.params.maxSize <;> simp [bufRead, h, eq_comm]

/-- `BufRead` at an index that exists. -/
theorem bufRead_of_lt {sp : Space} {i : Nat} {s : State} (h : i < s.params.maxSize) :
    bufRead sp i s = .ok (s.byteAt sp i) := by simp [bufRead, h]

/-- `BufWrite` answers at an index that exists, and only there; it changes that byte alone. -/
theorem bufWrite_eq_ok {sp : Space} {i : Nat} {v : Byte} {s t : State} :
    bufWrite sp i v s = .ok t ↔ i < s.params.maxSize ∧ t = s.setBuf sp (memWrite (s.bufOf sp) i v) := by
  by_cases h : i < s.params.maxSize <;> simp [bufWrite, h, eq_comm]

/-- `BufWrite` at an index that exists. -/
theorem bufWrite_of_lt {sp : Space} {i : Nat} {v : Byte} {s : State} (h : i < s.params.maxSize) :
    bufWrite sp i v s = .ok (s.setBuf sp (memWrite (s.bufOf sp) i v)) := by simp [bufWrite, h]

/-- A run of `BufWrite`s at indices that all exist. -/
theorem bufWriteAll_of_le {sp : Space} {bs : List Byte} {i : Nat} {s : State}
    (h : i + bs.length ≤ s.params.maxSize ∨ bs = []) :
    bufWriteAll sp i bs s = .ok (s.setBuf sp (memWriteAll (s.bufOf sp) i bs)) := by
  induction bs generalizing i s with
  | nil => simp [bufWriteAll]
  | cons b bs ih =>
    rcases h with h | h
    · simp only [List.length_cons] at h
      have hi : i < s.params.maxSize := by omega
      rw [bufWriteAll, bufWrite_of_lt hi]
      simp only
      rw [ih (Or.inl (by simp only [State.setBuf_params]; omega))]
      simp
    · cases h

/-- Whatever a run of `BufWrite`s answers: the bytes written, all at indices that exist. -/
theorem bufWriteAll_ok {sp : Space} {bs : List Byte} {i : Nat} {s t : State} (h : bufWriteAll sp i bs s = .ok t) :
    (i + bs.length ≤ s.params.maxSize ∨ bs = []) ∧ t = s.setBuf sp (memWriteAll (s.bufOf sp) i bs) := by
  induction bs generalizing i s with
  | nil =>
    refine ⟨Or.inr rfl, ?_⟩
    simp only [bufWriteAll, Except.ok.injEq] at h
    simp [← h]
  | cons b bs ih =>
    rw [bufWriteAll] at h
    split at h
    · rename_i s' hs
      obtain ⟨hi, rfl⟩ := bufWrite_eq_ok.1 hs
      obtain ⟨hle, rfl⟩ := ih h
      refine ⟨Or.inl ?_, by simp⟩
      rcases hle with hle | rfl
      · simp only [State.setBuf_params] at hle
        simp only [List.length_cons]
        omega
      · simp only [List.length_cons, List.length_nil]
        omega
    · cases h

/-- The byte an index holds after one `BufWrite`. -/
theorem byteAt_setBuf_memWrite (s : State) (sp : Space) (i j : Nat) (v : Byte) :
    (s.setBuf sp (memWrite (s.bufOf sp) i v)).byteAt sp j = if j = i then v else s.byteAt sp j := by
  unfold State.byteAt
  rw [State.bufOf_setBuf, memRead_memWrite]
  by_cases h : j = i <;> simp [h]

/-- The byte an index holds after a run of `BufWrite`s. -/
theorem byteAt_setBuf_memWriteAll (s : State) (sp : Space) (i j : Nat) (bs : List Byte) :
    (s.setBuf sp (memWriteAll (s.bufOf sp) i bs)).byteAt sp j =
      if i ≤ j ∧ j < i + bs.length then bs[j - i]?.getD 0#8 else s.byteAt sp j := by
  unfold State.byteAt
  rw [State.bufOf_setBuf, memRead_memWriteAll]
  by_cases h : i ≤ j ∧ j < i + bs.length
  · have hlt : j - i < bs.length := by omega
    simp [h, List.getElem?_eq_getElem hlt]
  · simp [h]

end Sys2Proof.Machine
end

