-- ==== Sys2Proof/Laws/Codec.lean ====
section
/-!
SUPPORT. What the codec and the shared parts of the operations can do, said once: for each, every case in which it answers, and
the answer.
-/
namespace Sys2Proof.Machine

theorem oversize_eq_true {p : Config.Params} {len : Length} : oversize p len = true ↔ p.maxSize ≤ len.toNat := by
  simp [oversize]

theorem oversize_eq_false {p : Config.Params} {len : Length} : oversize p len = false ↔ len.toNat < p.maxSize := by
  simp [oversize]

theorem outcomeOf_eq_next {x : Except Fault State} {t : State} : outcomeOf x = .next t ↔ x = .ok t := by
  cases x <;> simp [outcomeOf]

theorem outcomeOf_eq_fault {x : Except Fault State} {f : Fault} : outcomeOf x = .fault f ↔ x = .error f := by
  cases x <;> simp [outcomeOf]

theorem outcomeOf_ne_refused {x : Except Fault State} {r : Refusal} : outcomeOf x ≠ .refused r := by
  cases x <;> simp [outcomeOf]

@[simp] theorem finish_eq (r : Result) (s : State) : finish r s = .next (s.setResult r) := rfl

/-! ### Encode -/

/-- Everything `EncodeSF()` can answer (R101). -/
theorem encodeSF_ok {s : State} {e : Encoded} (h : encodeSF s = .ok e) :
    ∃ p0, (1 ≤ s.tx.len.toNat → 0 < s.params.maxSize ∧ p0 = s.byteAt .txb 0) ∧
      (s.tx.len.toNat = 0 → p0 = s.params.pad) ∧
      e = .frame (headerFrame .sf s.tx.id s.tx.len p0) (s.setTx { s.tx with cursor := s.tx.len }) := by
  unfold encodeSF at h
  split at h
  · rename_i p0 hp
    refine ⟨p0, ?_, ?_, by cases h; rfl⟩
    · intro h1
      rw [if_pos h1] at hp
      exact bufRead_eq_ok.1 hp
    · intro h0
      rw [if_neg (by omega)] at hp
      cases hp; rfl
  · cases h

/-- Everything `EncodeFF()` can answer (R102). -/
theorem encodeFF_ok {s : State} {e : Encoded} (h : encodeFF s = .ok e) :
    0 < s.params.maxSize ∧
      e = .frame (headerFrame .ff s.tx.id s.tx.len (s.byteAt .txb 0))
        (s.setTx { s.tx with cursor := 1#16, cstate := .cts }) := by
  unfold encodeFF at h
  split at h
  · rename_i p0 hp
    obtain ⟨hlt, rfl⟩ := bufRead_eq_ok.1 hp
    exact ⟨hlt, by cases h; rfl⟩
  · cases h

/-- Byte `j` of a CF with `n` payload bytes, the first being payload byte `c` (R103). -/
def cfByteOf (s : State) (n j : Nat) : Byte :=
  if j ≤ n then s.byteAt .txb (s.tx.cursor.toNat + j - 1) else s.params.pad

theorem cfByte_ok {s : State} {n j : Nat} {v : Byte} (h : cfByte s n j = .ok v) : v = cfByteOf s n j := by
  unfold cfByte at h
  unfold cfByteOf
  split at h
  · rename_i hj
    rw [if_pos hj]
    exact (bufRead_eq_ok.1 h).2
  · rename_i hj
    rw [if_neg hj]
    cases h; rfl

theorem cfByte_of_lt {s : State} {n j : Nat} (h : j ≤ n → s.tx.cursor.toNat + j - 1 < s.params.maxSize) :
    cfByte s n j = .ok (cfByteOf s n j) := by
  unfold cfByte cfByteOf
  split
  · rename_i hj
    exact bufRead_of_lt (h hj)
  · rfl

/-- The frame `EncodeCF()` builds (R103). -/
def cfFrameOf (s : State) : Frame :=
  cfFrame s.tx.seq (cfByteOf s (cfCount s.tx.len s.tx.cursor) 1) (cfByteOf s (cfCount s.tx.len s.tx.cursor) 2)
    (cfByteOf s (cfCount s.tx.len s.tx.cursor) 3)

/-- Everything `EncodeCF()` can answer (R103). -/
theorem encodeCF_ok {s : State} {e : Encoded} (h : encodeCF s = .ok e) :
    e = .frame (cfFrameOf s) (s.setTx (txAfterCF s.tx)) := by
  unfold encodeCF at h
  simp only at h
  split at h
  · rename_i a b c ha hb hc
    rw [cfByte_ok ha, cfByte_ok hb, cfByte_ok hc] at h
    cases h; rfl
  all_goals cases h

/-- `EncodeCF()` in its precondition (R103): it answers. -/
theorem encodeCF_of_lt {s : State} (hc : s.tx.cursor.toNat < s.tx.len.toNat) (hl : s.tx.len.toNat ≤ s.params.maxSize) :
    encodeCF s = .ok (.frame (cfFrameOf s) (s.setTx (txAfterCF s.tx))) := by
  have hb : ∀ j, 1 ≤ j → (j ≤ cfCount s.tx.len s.tx.cursor → s.tx.cursor.toNat + j - 1 < s.params.maxSize) := by
    intro j hj hn
    unfold cfCount at hn
    omega
  unfold encodeCF
  simp only
  rw [cfByte_of_lt (hb 1 (by omega)), cfByte_of_lt (hb 2 (by omega)), cfByte_of_lt (hb 3 (by omega))]
  rfl

/-! ### Decode -/

/-- Everything `DecodeSF` can answer (R106). -/
theorem decodeSF_ok {node : Node} {id : MsgId} {len : Length} {p0 : Byte} {s t : State}
    (h : decodeSF node id len p0 s = .ok t) :
    (s.params.maxSize ≤ len.toNat ∧ t = raiseRxError .rxExceededCapacity node (rxTakeHeader id len s)) ∨
    (len.toNat < s.params.maxSize ∧ len.toNat = 0 ∧ t = raiseRxMsg node (rxTakeHeader id len s)) ∨
    (len.toNat < s.params.maxSize ∧ 1 ≤ len.toNat ∧
      t = raiseRxMsg node ((rxTakeHeader id len s).setBuf .rxb (memWrite s.rx.buf 0 p0))) := by
  unfold decodeSF at h
  split at h
  · rename_i ho
    exact Or.inl ⟨oversize_eq_true.1 ho, by cases h; rfl⟩
  · rename_i ho
    have hlt := oversize_eq_false.1 (by simpa using ho)
    split at h
    · rename_i s' hs
      split at hs
      · rename_i h1
        obtain ⟨_, rfl⟩ := bufWrite_eq_ok.1 hs
        exact Or.inr (Or.inr ⟨hlt, h1, by cases h; rfl⟩)
      · rename_i h1
        cases hs
        exact Or.inr (Or.inl ⟨hlt, by omega, by cases h; rfl⟩)
    · cases h

/-- `DecodeSF` always answers. -/
theorem decodeSF_answers (node : Node) (id : MsgId) (len : Length) (p0 : Byte) (s : State) :
    ∃ t, decodeSF node id len p0 s = .ok t := by
  unfold decodeSF
  split
  · exact ⟨_, rfl⟩
  · rename_i ho
    have hlt := oversize_eq_false.1 (by simpa using ho)
    split
    · exact ⟨_, rfl⟩
    · rename_i f hf
      split at hf
      · rw [bufWrite_of_lt (by simp only [rxTakeHeader_params]; omega)] at hf
        cases hf
      · cases hf

/-- Everything `DecodeFF` can answer (R107). -/
theorem decodeFF_ok {node : Node} {id : MsgId} {len : Length} {p0 : Byte} {s t : State}
    (h : decodeFF node id len p0 s = .ok t) :
    (s.params.maxSize ≤ len.toNat ∧ t = raiseRxError .rxExceededCapacity node (rxTakeHeader id len s)) ∨
    (len.toNat < s.params.maxSize ∧
      t = (((rxTakeHeader id len s).setBuf .rxb (memWrite s.rx.buf 0 p0)).setRx
        (rxEnterCts { rxResetEngine s.rx with id := id, len := len, buf := memWrite s.rx.buf 0 p0 })).setResult {}) := by
  unfold decodeFF at h
  split at h
  · rename_i ho
    exact Or.inl ⟨oversize_eq_true.1 ho, by cases h; rfl⟩
  · rename_i ho
    have hlt := oversize_eq_false.1 (by simpa using ho)
    split at h
    · rename_i s' hs
      obtain ⟨_, rfl⟩ := bufWrite_eq_ok.1 hs
      exact Or.inr ⟨hlt, by cases h; rfl⟩
    · cases h

/-- `DecodeFF` always answers. -/
theorem decodeFF_answers (node : Node) (id : MsgId) (len : Length) (p0 : Byte) (s : State) :
    ∃ t, decodeFF node id len p0 s = .ok t := by
  unfold decodeFF
  split
  · exact ⟨_, rfl⟩
  · rename_i ho
    have hlt := oversize_eq_false.1 (by simpa using ho)
    rw [bufWrite_of_lt (by simp only [rxTakeHeader_params]; omega)]
    exact ⟨_, rfl⟩

/-- The state after the bytes and counters of a matching CF, before the completion test (R108). -/
def rxStored (a b c : Byte) (s : State) : State :=
  (s.setBuf .rxb (memWriteAll s.rx.buf s.rx.cursor.toNat (cfPayload (cfCount s.rx.len s.rx.cursor) a b c))).setRx
    (rxAfterCF
      { s.rx with buf := memWriteAll s.rx.buf s.rx.cursor.toNat (cfPayload (cfCount s.rx.len s.rx.cursor) a b c) })

/-- Everything the CF arm of `Decode` can answer (R105, R108, R109, R110). -/
theorem receiveCF_ok {node : Node} {seq : SeqNo} {a b c : Byte} {s t : State} (h : receiveCF node seq a b c s = .ok t) :
    (s.rx.cstate = .init ∧ t = decodeInvalid node s) ∨
    (s.rx.cstate = .cts ∧ seq ≠ s.rx.seq ∧ t = decodeSnError node s) ∨
    (s.rx.cstate = .cts ∧ seq = s.rx.seq ∧ t = rxFinishCF node (rxStored a b c s)) := by
  unfold receiveCF at h
  split at h
  · rename_i hc
    unfold decodeCF at h
    split at h
    · rename_i hne
      exact Or.inr (Or.inl ⟨hc, hne, by cases h; rfl⟩)
    · rename_i heq
      split at h
      · rename_i s' hs
        obtain ⟨_, rfl⟩ := bufWriteAll_ok hs
        exact Or.inr (Or.inr ⟨hc, by simpa using heq, by cases h; rfl⟩)
      · cases h
  · rename_i hc
    exact Or.inl ⟨hc, by cases h; rfl⟩

/-- A CF whose sequence number matches, in `CTS` with the announced length within the buffer (R108). -/
theorem receiveCF_of_match {node : Node} {a b c : Byte} {s : State} (hc : s.rx.cstate = .cts)
    (hl : s.rx.len.toNat ≤ s.params.maxSize) :
    receiveCF node s.rx.seq a b c s = .ok (rxFinishCF node (rxStored a b c s)) := by
  have hle : s.rx.cursor.toNat + (cfPayload (cfCount s.rx.len s.rx.cursor) a b c).length ≤ s.params.maxSize ∨
      cfPayload (cfCount s.rx.len s.rx.cursor) a b c = [] := by
    by_cases h0 : cfCount s.rx.len s.rx.cursor = 0
    · exact Or.inr (by simp [cfPayload, h0])
    · refine Or.inl ?_
      rw [cfPayload_length]
      unfold cfCount at h0 ⊢
      omega
  unfold receiveCF decodeCF
  rw [hc]
  simp only [ne_eq, not_true_eq_false, if_false]
  rw [bufWriteAll_of_le hle]
  rfl

/-- `Decode` on a frame is the meaning of the instruction that the frame is (R105). -/
theorem outcomeOf_decodeInbound (node : Node) (f : Frame) (s : State) :
    outcomeOf (decodeInbound node f s) = exec (frameInstr node f) s := by
  unfold decodeInbound frameInstr
  cases ftypeOf f.f0 <;> rfl

/-! ### The transmit operations -/

/-- Everything `TX_SEND` can answer from the copy of the payload on (R121). -/
theorem txBegin_ok {payload : List Byte} {now : Time} {wrOk : Bool} {s t : State}
    (h : txBegin payload now wrOk s = .ok t) :
    ∃ s1, s1 = s.setBuf .txb (memWriteAll s.tx.buf 0 payload) ∧
      ((∃ st, encodeNext (txSetBusy s1) = .ok (.failure st) ∧ t = (txSetBusy s1).setResult { status := st }) ∨
       (∃ f s2, encodeNext (txSetBusy s1) = .ok (.frame f s2) ∧ t = txSendFrame f now wrOk s2)) := by
  unfold txBegin at h
  split at h
  · cases h
  · rename_i s1 hs
    obtain ⟨_, rfl⟩ := bufWriteAll_ok hs
    refine ⟨_, rfl, ?_⟩
    split at h
    · cases h
    · rename_i st he
      exact Or.inl ⟨st, he, by cases h; rfl⟩
    · rename_i f s2 he
      exact Or.inr ⟨f, s2, he, by cases h; rfl⟩

/-- Everything `TICK` can answer once it has cleared the acknowledgment (R123). -/
theorem txAdvance_ok {now : Time} {wrOk : Bool} {s t : State} (hb : s.tx.state = .busy)
    (h : txAdvance now wrOk s = .ok t) :
    (s.tx.cstate = .init ∧ t = raiseEvent .txb (txEvent .txDone s.tx) .success none s) ∨
    (s.tx.cstate = .cts ∧ t = txTickFrame (cfFrameOf s) now wrOk (s.setTx (txAfterCF s.tx))) := by
  unfold txAdvance at h
  split at h
  · rename_i hc
    exact Or.inl ⟨hc, by cases h; rfl⟩
  · rename_i hc
    have he : encodeNext s = encodeCF s := by simp [encodeNext, hb, hc]
    rw [he] at h
    split at h
    · cases h
    · rename_i st hst
      have := encodeCF_ok hst
      cases this
    · rename_i f s' hf
      have := encodeCF_ok hf
      cases this
      exact Or.inr ⟨hc, by cases h; rfl⟩

end Sys2Proof.Machine
end

