-- ==== Sys2Proof/Laws/Exec.lean ====
section
/-!
SUPPORT. What each operation can do, said once: every case in which its meaning answers a next state, and that state.
-/
namespace Sys2Proof.Machine

theorem txState_eq_idle {x : TxState} (h : x ≠ .busy) : x = .idle := by
  cases x
  · rfl
  · exact absurd rfl h

/-- A frame out of `Encode` moves the cursor, the codec state and the sequence number, and nothing else (R101 to R103). -/
theorem encodeNext_frame {s s2 : State} {f : Frame} (h : encodeNext s = .ok (.frame f s2)) :
    ∃ c cs q, s2 = s.setTx { s.tx with cursor := c, cstate := cs, seq := q } := by
  unfold encodeNext at h
  split at h
  · cases h
  · split at h
    · cases encodeCF_ok h
      exact ⟨_, _, _, rfl⟩
    · split at h
      · cases h
      · split at h
        · obtain ⟨p0, _, _, he⟩ := encodeSF_ok h
          cases he
          exact ⟨s.tx.len, s.tx.cstate, s.tx.seq, rfl⟩
        · obtain ⟨_, he⟩ := encodeFF_ok h
          cases he
          exact ⟨1#16, .cts, s.tx.seq, rfl⟩

/-- `Encode` fails only while `IDLE` or on a message above the capacity (R104). -/
theorem encodeNext_failure {s : State} {st : Status} (h : encodeNext s = .ok (.failure st)) :
    (s.tx.state = .idle ∧ st = .failed) ∨ (s.params.maxSize ≤ s.tx.len.toNat ∧ st = .exceededCapacity) := by
  unfold encodeNext at h
  split at h
  · rename_i hi
    cases h
    exact Or.inl ⟨hi, rfl⟩
  · split at h
    · cases encodeCF_ok h
    · split at h
      · rename_i ho
        cases h
        exact Or.inr ⟨oversize_eq_true.1 ho, rfl⟩
      · split at h
        · obtain ⟨p0, _, _, he⟩ := encodeSF_ok h
          cases he
        · obtain ⟨_, he⟩ := encodeFF_ok h
          cases he

/-- The state in which `TX_SEND` calls `Encode`: the message loaded, the engine `BUSY` (R121). -/
def txLoaded (id : MsgId) (len : Length) (payload : List Byte) (node : Node) (s : State) : State :=
  s.setTx { s.tx with
    state := .busy, id := id, len := len, node := node, buf := memWriteAll s.tx.buf 0 payload }

/-- Everything `TX_SEND` can do (R121). -/
theorem execTxSend_next {id : MsgId} {len : Length} {payload : List Byte} {node : Node} {now : Time} {wrOk : Bool}
    {s t : State} (h : execTxSend id len payload node now wrOk s = .next t) :
    (s.tx.state = .busy ∧ t = s.setResult { status := .failed }) ∨
    (s.tx.state = .idle ∧ s.params.maxSize ≤ len.toNat ∧ t = s.setResult { status := .exceededCapacity }) ∨
    (s.tx.state = .idle ∧ len.toNat < s.params.maxSize ∧ payload.length = len.toNat ∧
      ∃ f s2, encodeNext (txLoaded id len payload node s) = .ok (.frame f s2) ∧ t = txSendFrame f now wrOk s2) := by
  unfold execTxSend at h
  split at h
  · rename_i hb
    exact Or.inl ⟨hb, by cases h; rfl⟩
  · rename_i hb
    have hi := txState_eq_idle hb
    split at h
    · rename_i ho
      exact Or.inr (Or.inl ⟨hi, oversize_eq_true.1 ho, by cases h; rfl⟩)
    · rename_i ho
      have hlt := oversize_eq_false.1 (by simpa using ho)
      split at h
      · rename_i hp
        have hp' : payload.length = len.toNat := by simpa [payloadFits] using hp
        refine Or.inr (Or.inr ⟨hi, hlt, hp', ?_⟩)
        obtain ⟨s1, rfl, hcase⟩ := txBegin_ok (outcomeOf_eq_next.1 h)
        rcases hcase with ⟨st, he, _⟩ | ⟨f, s2, he, ht⟩
        · exfalso
          rcases encodeNext_failure he with ⟨hidle, _⟩ | ⟨hbig, _⟩
          · exact TxState.noConfusion hidle
          · exact absurd hbig (by simpa [txSetBusy, txLoadHeader] using hlt)
        · exact ⟨f, s2, he, ht⟩
      · cases h

/-- Everything `TX_ACK` can do (R122). -/
theorem execTxAck_next {s t : State} (h : execTxAck s = .next t) :
    (s.tx.state = .busy ∧ t = (s.setTx { s.tx with ack := true }).setResult {}) ∨
    (s.tx.state = .idle ∧ t = s.setResult {}) := by
  unfold execTxAck at h
  split at h
  · rename_i hb
    exact Or.inl ⟨hb, by cases h; rfl⟩
  · rename_i hi
    exact Or.inr ⟨hi, by cases h; rfl⟩

/-- The state in which `TICK` acts on an acknowledgment: the flag cleared (R123). -/
def ackTaken (s : State) : State := s.setTx { s.tx with ack := false }

@[simp] theorem ackTaken_tx (s : State) : (ackTaken s).tx = { s.tx with ack := false } := rfl
@[simp] theorem ackTaken_rx (s : State) : (ackTaken s).rx = s.rx := rfl
@[simp] theorem ackTaken_params (s : State) : (ackTaken s).params = s.params := rfl
@[simp] theorem ackTaken_requests (s : State) : (ackTaken s).requests = s.requests := rfl
@[simp] theorem ackTaken_freeDraws (s : State) : (ackTaken s).freeDraws = s.freeDraws := rfl

/-- Everything `TICK` can do (R123). -/
theorem execTick_next {now : Time} {wrOk : Bool} {s t : State} (h : execTick now wrOk s = .next t) :
    (s.tx.state = .idle ∧ t = s.setResult {}) ∨
    (s.tx.state = .busy ∧ s.tx.ack = true ∧ s.tx.cstate = .init ∧
      t = raiseEvent .txb (txEvent .txDone s.tx) .success none (ackTaken s)) ∨
    (s.tx.state = .busy ∧ s.tx.ack = true ∧ s.tx.cstate = .cts ∧
      t = txTickFrame (cfFrameOf (ackTaken s)) now wrOk ((ackTaken s).setTx (txAfterCF (ackTaken s).tx))) ∨
    (s.tx.state = .busy ∧ s.tx.ack = false ∧ s.params.txTimeout < elapsed now s.tx.stamp ∧
      t = raiseEvent .txb (txEvent .txTimeout s.tx) .success none s) ∨
    (s.tx.state = .busy ∧ s.tx.ack = false ∧ elapsed now s.tx.stamp ≤ s.params.txTimeout ∧ t = s.setResult {}) := by
  unfold execTick at h
  split at h
  · rename_i hi
    exact Or.inl ⟨hi, by cases h; rfl⟩
  · rename_i hb
    split at h
    · rename_i ha
      rcases txAdvance_ok (s := ackTaken s) hb (outcomeOf_eq_next.1 h) with ⟨hc, ht⟩ | ⟨hc, ht⟩
      · exact Or.inr (Or.inl ⟨hb, ha, hc, ht⟩)
      · exact Or.inr (Or.inr (Or.inl ⟨hb, ha, hc, ht⟩))
    · rename_i ha
      have ha' : s.tx.ack = false := by simpa using ha
      split at h
      · rename_i ho
        exact Or.inr (Or.inr (Or.inr (Or.inl ⟨hb, ha', by simpa [timedOut] using ho, by cases h; rfl⟩)))
      · rename_i ho
        exact Or.inr (Or.inr (Or.inr (Or.inr ⟨hb, ha', by simpa [timedOut] using ho, by cases h; rfl⟩)))

/-- Everything a report of the lower layer can do (R124, R125). -/
theorem txReport_cases (kind : EventKind) (s : State) :
    (s.tx.state = .busy ∧ txReport kind s = raiseEvent .txb (txEvent kind s.tx) .success none s) ∨
    (s.tx.state = .idle ∧ txReport kind s = s.setResult {}) := by
  unfold txReport
  split
  · rename_i hb
    exact Or.inl ⟨hb, rfl⟩
  · rename_i hi
    exact Or.inr ⟨hi, rfl⟩

/-- Everything `RX_READ` can do (R142). -/
theorem execRxRead_next {i : Index} {s t : State} (h : execRxRead i s = .next t) :
    (s.params.maxSize ≤ i.toNat ∧ t = rxReadFailed s) ∨
    (i.toNat < s.params.maxSize ∧ t = s.setResult { data := some (s.byteAt .rxb i.toNat) }) := by
  unfold execRxRead at h
  split at h
  · rename_i hi
    exact Or.inl ⟨hi, by cases h; rfl⟩
  · rename_i hi
    rw [bufRead_of_lt (by omega)] at h
    exact Or.inr ⟨by omega, by cases h; rfl⟩

/-- What an inbound frame of any kind can do to the state it finds (R105 to R110): one of the five ends of `Decode`. -/
inductive Received (node : Node) (s t : State) : Prop where
  | refused (id : MsgId) (len : Length) : s.params.maxSize ≤ len.toNat →
      t = raiseRxError .rxExceededCapacity node (rxTakeHeader id len s) → Received node s t
  | single (id : MsgId) (len : Length) (m : Memory) : len.toNat < s.params.maxSize →
      ((len.toNat = 0 ∧ m = s.rx.buf) ∨ (1 ≤ len.toNat ∧ ∃ p0, m = memWrite s.rx.buf 0 p0)) →
      t = raiseRxMsg node ((rxTakeHeader id len s).setBuf .rxb m) → Received node s t
  | first (id : MsgId) (len : Length) (p0 : Byte) : len.toNat < s.params.maxSize →
      t = (((rxTakeHeader id len s).setBuf .rxb (memWrite s.rx.buf 0 p0)).setRx
        (rxEnterCts { rxResetEngine s.rx with id := id, len := len, buf := memWrite s.rx.buf 0 p0 })).setResult {} →
      Received node s t
  | consecutive (a b c : Byte) : s.rx.cstate = .cts →
      (s.rx.cursor.toNat + cfCount s.rx.len s.rx.cursor ≤ s.params.maxSize ∨ cfCount s.rx.len s.rx.cursor = 0) →
      t = rxFinishCF node (rxStored a b c s) → Received node s t
  | discarded (kind : EventKind) : (kind = .rxSnError ∨ kind = .rxInvalidFrame) → t = raiseRxError kind node s →
      Received node s t

theorem received_of_sf {node : Node} {id : MsgId} {len : Length} {p0 : Byte} {s t : State}
    (h : execSf node id len p0 s = .next t) : Received node s t := by
  rcases decodeSF_ok (outcomeOf_eq_next.1 h) with ⟨hl, ht⟩ | ⟨hl, h0, ht⟩ | ⟨hl, h1, ht⟩
  · exact .refused id len hl ht
  · exact .single id len s.rx.buf hl (Or.inl ⟨h0, rfl⟩) (by rw [ht]; rfl)
  · exact .single id len _ hl (Or.inr ⟨h1, p0, rfl⟩) ht

theorem received_of_ff {node : Node} {id : MsgId} {len : Length} {p0 : Byte} {s t : State}
    (h : execFf node id len p0 s = .next t) : Received node s t := by
  rcases decodeFF_ok (outcomeOf_eq_next.1 h) with ⟨hl, ht⟩ | ⟨hl, ht⟩
  · exact .refused id len hl ht
  · exact .first id len p0 hl ht

theorem received_of_cf {node : Node} {seq : SeqNo} {a b c : Byte} {s t : State}
    (h : execCf node seq a b c s = .next t) : Received node s t := by
  have hok := outcomeOf_eq_next.1 h
  rcases receiveCF_ok hok with ⟨_, ht⟩ | ⟨_, _, ht⟩ | ⟨hc, hq, ht⟩
  · exact .discarded .rxInvalidFrame (Or.inr rfl) ht
  · exact .discarded .rxSnError (Or.inl rfl) ht
  · refine .consecutive a b c hc ?_ ht
    unfold receiveCF decodeCF at hok
    rw [hc, hq] at hok
    simp only [ne_eq, not_true_eq_false, if_false] at hok
    split at hok
    · rename_i s' hs
      have hle := (bufWriteAll_ok hs).1
      have h3 := cfCount_le_three s.rx.len s.rx.cursor
      rcases hle with hle | hnil
      · rw [cfPayload_length] at hle
        exact Or.inl (by omega)
      · have h0 := congrArg List.length hnil
        rw [cfPayload_length] at h0
        simp only [List.length_nil] at h0
        exact Or.inr (by omega)
    · cases hok

theorem received_of_ft3 {node : Node} (low6 : BitVec 6) (b1 b2 b3 : Byte) {s t : State}
    (h : execFt3 node low6 b1 b2 b3 s = .next t) : Received node s t := by
  cases h
  exact .discarded .rxInvalidFrame (Or.inr rfl) rfl

/-- `RX_FRAME` does what the frame of its bytes does (R140). -/
theorem execRxFrame_eq (node : Node) (b0 b1 b2 b3 : Byte) (s : State) :
    execRxFrame node b0 b1 b2 b3 s = exec (frameInstr node ⟨b0, b1, b2, b3⟩) s :=
  outcomeOf_decodeInbound node ⟨b0, b1, b2, b3⟩ s

theorem received_of_rxFrame {node : Node} {b0 b1 b2 b3 : Byte} {s t : State}
    (h : execRxFrame node b0 b1 b2 b3 s = .next t) : Received node s t := by
  rw [execRxFrame_eq] at h
  unfold frameInstr at h
  cases hf : ftypeOf b0 <;> simp only [hf] at h
  · exact received_of_ff h
  · exact received_of_cf h
  · exact received_of_sf h
  · exact received_of_ft3 (low6Of b0) b1 b2 b3 h

end Sys2Proof.Machine
end

