-- ==== Sys2Proof/Laws/PerInstr.lean ====
section
/-!
SUPPORT. The family `TableMatch`: the bits that spec/opcode_table.json fixes in an instruction's row stand in the encoding of
every instruction of that row.
-/
namespace Sys2Proof.Laws.TableMatch

/-- The bits of a row as the table numbers them: the code byte of an operation, the word view of a frame (R9). -/
def rowWord (r : Request) : Nat :=
  match r with
  | .op [] => 0
  | .op (code :: _) => code.toNat
  | .frame _ [f0, f1, f2, f3] => f0.toNat * 16777216 + f1.toNat * 65536 + f2.toNat * 256 + f3.toNat
  | .frame _ _ => 0

/-- What the table fixes in a row: the lowest bit of the fixed field, its width, and its value. -/
structure Fixed where
  lo : Nat
  width : Nat
  value : Nat
deriving DecidableEq, Repr

/-- The fixed field of each row of the table. -/
def fixedOf (i : Instr) : Fixed :=
  match i with
  | .ff _ _ _ _ => ⟨30, 2, 0⟩
  | .cf _ _ _ _ _ => ⟨30, 2, 1⟩
  | .sf _ _ _ _ => ⟨30, 2, 2⟩
  | .ft3 _ _ _ _ _ => ⟨30, 2, 3⟩
  | .reset => ⟨0, 4, 0x0⟩
  | .txSend _ _ _ _ _ _ => ⟨0, 4, 0x1⟩
  | .txAck => ⟨0, 4, 0x2⟩
  | .tick _ _ => ⟨0, 4, 0x3⟩
  | .txTimeoutEvt => ⟨0, 4, 0x4⟩
  | .txIoError => ⟨0, 4, 0x5⟩
  | .txReset => ⟨0, 4, 0x6⟩
  | .rxFrame _ _ _ _ _ => ⟨0, 4, 0x7⟩
  | .rxReset => ⟨0, 4, 0x8⟩
  | .rxRead _ => ⟨0, 4, 0x9⟩
  | .status => ⟨0, 4, 0xA⟩
  | .reservedB => ⟨0, 4, 0xB⟩
  | .reservedC => ⟨0, 4, 0xC⟩
  | .reservedD => ⟨0, 4, 0xD⟩
  | .reservedE => ⟨0, 4, 0xE⟩
  | .reservedF => ⟨0, 4, 0xF⟩

/-- The encoding has the row's fixed bits. -/
def Statement (i : Instr) : Prop :=
  rowWord (encode i) / 2 ^ (fixedOf i).lo % 2 ^ (fixedOf i).width = (fixedOf i).value

/-- The top two bits of the word of a frame are its type. -/
theorem top_bits (t : FrameType) (low6 : BitVec 6) (f1 f2 f3 : Byte) :
    ((headerByte t low6).toNat * 16777216 + f1.toNat * 65536 + f2.toNat * 256 + f3.toNat) / 2 ^ 30 % 2 ^ 2 = ftypeCode t := by
  rw [headerByte_toNat]
  cases t <;> simp only [ftypeCode] <;> omega

/-- The low four bits of an operation's word are those of its code byte. -/
theorem op_bits (code : Byte) (args : List Byte) :
    rowWord (.op (code :: args)) / 2 ^ 0 % 2 ^ 4 = code.toNat / 2 ^ 0 % 2 ^ 4 := rfl

theorem ff (node : Node) (id : MsgId) (len : Length) (p0 : Byte) : Statement (.ff node id len p0) :=
  top_bits .ff id _ _ _

theorem cf (node : Node) (seq : SeqNo) (a b c : Byte) : Statement (.cf node seq a b c) := top_bits .cf seq _ _ _

theorem sf (node : Node) (id : MsgId) (len : Length) (p0 : Byte) : Statement (.sf node id len p0) :=
  top_bits .sf id _ _ _

theorem ft3 (node : Node) (low6 : BitVec 6) (b1 b2 b3 : Byte) : Statement (.ft3 node low6 b1 b2 b3) :=
  top_bits .unassigned low6 _ _ _

theorem reset : Statement .reset := rfl

theorem txSend (id : MsgId) (len : Length) (payload : List Byte) (node : Node) (now : Time) (wrOk : Bool) :
    Statement (.txSend id len payload node now wrOk) :=
  op_bits 0x1#8 _

theorem txAck : Statement .txAck := rfl

theorem tick (now : Time) (wrOk : Bool) : Statement (.tick now wrOk) :=
  op_bits 0x3#8 _

theorem txTimeoutEvt : Statement .txTimeoutEvt := rfl

theorem txIoError : Statement .txIoError := rfl

theorem txReset : Statement .txReset := rfl

theorem rxFrame (node : Node) (b0 b1 b2 b3 : Byte) : Statement (.rxFrame node b0 b1 b2 b3) :=
  op_bits 0x7#8 _

theorem rxReset : Statement .rxReset := rfl

theorem rxRead (i : Index) : Statement (.rxRead i) :=
  op_bits 0x9#8 _

theorem status : Statement .status := rfl

theorem reservedB : Statement .reservedB := rfl

theorem reservedC : Statement .reservedC := rfl

theorem reservedD : Statement .reservedD := rfl

theorem reservedE : Statement .reservedE := rfl

theorem reservedF : Statement .reservedF := rfl

end Sys2Proof.Laws.TableMatch
end

