-- ==== Sys2Proof/Laws/Step.lean ====
section
/-!
SUPPORT. What one instruction, and one step, can do: every end an operation has, in one inductive predicate, and the proof that
`exec` has no other. A property of all operations is a case analysis over these ends.
-/
namespace Sys2Proof.Machine

/-- `Executed i s t`: instruction `i` took state `s` to state `t`, by one of the ends its rule gives it. -/
inductive Executed : Instr → State → State → Prop where
  /-- An inbound frame (R105 to R110, R140). -/
  | inbound (i : Instr) (node : Node) (s t : State) : inboundNode i = some node → Received node s t → Executed i s t
  /-- `RESET` (R160). -/
  | reset (s : State) : Executed .reset s ((resetRx (resetTx s)).setResult {})
  /-- `TX_SEND` while busy (R121). -/
  | sendBusy (id : MsgId) (len : Length) (payload : List Byte) (node : Node) (now : Time) (wrOk : Bool) (s : State) :
      s.tx.state = .busy → Executed (.txSend id len payload node now wrOk) s (s.setResult { status := .failed })
  /-- `TX_SEND` above the capacity (R121). -/
  | sendLarge (id : MsgId) (len : Length) (payload : List Byte) (node : Node) (now : Time) (wrOk : Bool) (s : State) :
      s.tx.state = .idle → s.params.maxSize ≤ len.toNat →
      Executed (.txSend id len payload node now wrOk) s (s.setResult { status := .exceededCapacity })
  /-- `TX_SEND` that writes a frame (R121). -/
  | sendFrame (id : MsgId) (len : Length) (payload : List Byte) (node : Node) (now : Time) (wrOk : Bool) (s : State)
      (f : Frame) (c : Cursor) (cs : CodecState) (q : SeqNo) :
      s.tx.state = .idle → len.toNat < s.params.maxSize → payload.length = len.toNat →
      encodeNext (txLoaded id len payload node s) =
        .ok (.frame f ((txLoaded id len payload node s).setTx
          { (txLoaded id len payload node s).tx with cursor := c, cstate := cs, seq := q })) →
      Executed (.txSend id len payload node now wrOk) s
        (txSendFrame f now wrOk ((txLoaded id len payload node s).setTx
          { (txLoaded id len payload node s).tx with cursor := c, cstate := cs, seq := q }))
  /-- `TX_ACK` while busy (R122). -/
  | ackBusy (s : State) : s.tx.state = .busy →
      Executed .txAck s ((s.setTx { s.tx with ack := true }).setResult {})
  /-- `TX_ACK` while idle (R122). -/
  | ackIdle (s : State) : s.tx.state = .idle → Executed .txAck s (s.setResult {})
  /-- `TICK` while idle (R123). -/
  | tickIdle (now : Time) (wrOk : Bool) (s : State) : s.tx.state = .idle → Executed (.tick now wrOk) s (s.setResult {})
  /-- `TICK` on the final acknowledgment (R123). -/
  | tickDone (now : Time) (wrOk : Bool) (s : State) : s.tx.state = .busy → s.tx.ack = true → s.tx.cstate = .init →
      Executed (.tick now wrOk) s (raiseEvent .txb (txEvent .txDone s.tx) .success none (ackTaken s))
  /-- `TICK` that writes a CF (R123). -/
  | tickFrame (now : Time) (wrOk : Bool) (s : State) : s.tx.state = .busy → s.tx.ack = true → s.tx.cstate = .cts →
      Executed (.tick now wrOk) s
        (txTickFrame (cfFrameOf (ackTaken s)) now wrOk ((ackTaken s).setTx (txAfterCF (ackTaken s).tx)))
  /-- `TICK` on an expired timeout (R123). -/
  | tickTimeout (now : Time) (wrOk : Bool) (s : State) : s.tx.state = .busy → s.tx.ack = false →
      s.params.txTimeout < elapsed now s.tx.stamp →
      Executed (.tick now wrOk) s (raiseEvent .txb (txEvent .txTimeout s.tx) .success none s)
  /-- `TICK` that goes on waiting (R123). -/
  | tickWait (now : Time) (wrOk : Bool) (s : State) : s.tx.state = .busy → s.tx.ack = false →
      elapsed now s.tx.stamp ≤ s.params.txTimeout → Executed (.tick now wrOk) s (s.setResult {})
  /-- `TX_TIMEOUT_EVT` while busy (R124). -/
  | timeoutBusy (s : State) : s.tx.state = .busy →
      Executed .txTimeoutEvt s (raiseEvent .txb (txEvent .txTimeout s.tx) .success none s)
  /-- `TX_TIMEOUT_EVT` while idle (R124). -/
  | timeoutIdle (s : State) : s.tx.state = .idle → Executed .txTimeoutEvt s (s.setResult {})
  /-- `TX_IO_ERROR` while busy (R125). -/
  | errorBusy (s : State) : s.tx.state = .busy →
      Executed .txIoError s (raiseEvent .txb (txEvent .failure s.tx) .success none s)
  /-- `TX_IO_ERROR` while idle (R125). -/
  | errorIdle (s : State) : s.tx.state = .idle → Executed .txIoError s (s.setResult {})
  /-- `TX_RESET` (R126). -/
  | txReset (s : State) : Executed .txReset s ((resetTx s).setResult {})
  /-- `RX_RESET` (R141). -/
  | rxReset (s : State) : Executed .rxReset s ((resetRx s).setResult {})
  /-- `RX_READ` outside the buffer (R142). -/
  | readFailed (idx : Index) (s : State) : s.params.maxSize ≤ idx.toNat → Executed (.rxRead idx) s (rxReadFailed s)
  /-- `RX_READ` (R142). -/
  | read (idx : Index) (s : State) : idx.toNat < s.params.maxSize →
      Executed (.rxRead idx) s (s.setResult { data := some (s.byteAt .rxb idx.toNat) })
  /-- `STATUS` (R161). -/
  | status (s : State) : Executed .status s (s.setResult { busy := some ⟨txBusyBit s.tx, rxBusyBit s.rx⟩ })
  /-- A reserved operation code (R162). -/
  | reserved (i : Instr) (s : State) : i ∈ [Instr.reservedB, .reservedC, .reservedD, .reservedE, .reservedF] →
      Executed i s (s.setResult { status := .failed })

theorem inboundNode_isSome (i : Instr) : (inboundNode i).isSome = isInbound i := by cases i <;> rfl

theorem isInbound_of_inboundNode {i : Instr} {node : Node} (h : inboundNode i = some node) : isInbound i = true := by
  rw [← inboundNode_isSome, h]; rfl

/-- `exec` has no end but those of `Executed`. -/
theorem executed_of_exec {i : Instr} {s t : State} (h : exec i s = .next t) : Executed i s t := by
  cases i with
  | ff node id len p0 => exact .inbound _ node _ _ rfl (received_of_ff h)
  | cf node seq a b c => exact .inbound _ node _ _ rfl (received_of_cf h)
  | sf node id len p0 => exact .inbound _ node _ _ rfl (received_of_sf h)
  | ft3 node low6 b1 b2 b3 => exact .inbound _ node _ _ rfl (received_of_ft3 low6 b1 b2 b3 h)
  | rxFrame node b0 b1 b2 b3 => exact .inbound _ node _ _ rfl (received_of_rxFrame h)
  | reset => cases h; exact .reset s
  | txSend id len payload node now wrOk =>
    rcases execTxSend_next h with ⟨hb, rfl⟩ | ⟨hi, hl, rfl⟩ | ⟨hi, hl, hp, f, s2, he, rfl⟩
    · exact .sendBusy _ _ _ _ _ _ _ hb
    · exact .sendLarge _ _ _ _ _ _ _ hi hl
    · obtain ⟨c, cs, q, rfl⟩ := encodeNext_frame he
      exact .sendFrame _ _ _ _ _ _ _ f c cs q hi hl hp he
  | txAck =>
    rcases execTxAck_next h with ⟨hb, rfl⟩ | ⟨hi, rfl⟩
    · exact .ackBusy s hb
    · exact .ackIdle s hi
  | tick now wrOk =>
    rcases execTick_next h with ⟨hi, rfl⟩ | ⟨hb, ha, hc, rfl⟩ | ⟨hb, ha, hc, rfl⟩ | ⟨hb, ha, he, rfl⟩ | ⟨hb, ha, he, rfl⟩
    · exact .tickIdle _ _ _ hi
    · exact .tickDone _ _ _ hb ha hc
    · exact .tickFrame _ _ _ hb ha hc
    · exact .tickTimeout _ _ _ hb ha he
    · exact .tickWait _ _ _ hb ha he
  | txTimeoutEvt =>
    cases h
    rcases txReport_cases .txTimeout s with ⟨hb, ht⟩ | ⟨hi, ht⟩ <;> rw [ht]
    · exact .timeoutBusy s hb
    · exact .timeoutIdle s hi
  | txIoError =>
    cases h
    rcases txReport_cases .failure s with ⟨hb, ht⟩ | ⟨hi, ht⟩ <;> rw [ht]
    · exact .errorBusy s hb
    · exact .errorIdle s hi
  | txReset => cases h; exact .txReset s
  | rxReset => cases h; exact .rxReset s
  | rxRead idx =>
    rcases execRxRead_next h with ⟨hi, rfl⟩ | ⟨hi, rfl⟩
    · exact .readFailed idx s hi
    · exact .read idx s hi
  | status => cases h; exact .status s
  | reservedB => cases h; exact .reserved _ s (by simp)
  | reservedC => cases h; exact .reserved _ s (by simp)
  | reservedD => cases h; exact .reserved _ s (by simp)
  | reservedE => cases h; exact .reserved _ s (by simp)
  | reservedF => cases h; exact .reserved _ s (by simp)

/-- Everything a step can do: nothing, without a request; otherwise what the first request's instruction does. -/
theorem step_next {s t : State} (h : step s = .next t) :
    (s.requests = [] ∧ t = s) ∨
    ∃ r rs i, s.requests = r :: rs ∧ decode r = .ok i ∧ exec i { s with requests := rs } = .next t := by
  unfold step fetch at h
  split at h
  · rename_i hf
    split at hf
    · rename_i hr
      exact Or.inl ⟨hr, by cases h; rfl⟩
    · cases hf
  · rename_i r s' hf
    split at hf
    · cases hf
    · rename_i r' rs hr
      cases hf
      split at h
      · rename_i i hd
        exact Or.inr ⟨_, _, i, hr, hd, h⟩
      · cases h

end Sys2Proof.Machine
end

