-- ==== Sys2Proof/Tests/Slice0.lean ====
section
/-!
SUPPORT. Tests. The smoke test of `WellFormed` and of the decoder's rejections; a word written out for every constructor; one
step of each instruction against a vector of spec/95_test_vectors.md (its name stands in the comment) or a hand calculation
from the rules; and for every obligation with hypotheses a witness that meets them, at the boundaries of its clauses.
-/
namespace Sys2Proof.Machine.Tests

/-! ### Helpers -/

/-- The next state of an outcome. -/
def nextOf (o : Host.Outcome State Fault Refusal) : Option State :=
  match o with
  | .next s => some s
  | .fault _ => none
  | .refused _ => none

/-- The outputs of one operation. -/
def outOf (i : Instr) (s : State) : Option Result := (nextOf (exec i s)).bind State.result

/-- "Tx state" of spec/95_test_vectors.md: `(tx_state/tx_cstate, cursor, seq, ack)`. -/
def txOf (i : Instr) (s : State) : Option (TxState × CodecState × Nat × Nat × Bool) :=
  (nextOf (exec i s)).map fun t => (t.tx.state, t.tx.cstate, t.tx.cursor.toNat, t.tx.seq.toNat, t.tx.ack)

/-- "Rx state" of spec/95_test_vectors.md, with the busy flag: `(rx_cstate, cursor, seq)`. -/
def rxOf (i : Instr) (s : State) : Option (CodecState × RxFlag × Nat × Nat) :=
  (nextOf (exec i s)).map fun t => (t.rx.cstate, t.rx.busy, t.rx.cursor.toNat, t.rx.seq.toNat)

/-- The receive buffer after one operation. -/
def rxbOf (i : Instr) (s : State) : Option Memory := (nextOf (exec i s)).map fun t => t.rx.buf

/-- A state with the given engines and otherwise as after reset. -/
def withTx (t : TxEngine) : State := { State.reset with tx := t }
def withRx (r : RxEngine) : State := { State.reset with rx := r }

/-- The payload of the source's scenario, `0x10..0x16`. -/
def payload7 : List Byte := [0x10#8, 0x11#8, 0x12#8, 0x13#8, 0x14#8, 0x15#8, 0x16#8]

/-- The start state of T3: after `TX_SEND id=5 len=7 payload=[0x10..0x16] node=0 now=100`. -/
def tx7 : TxEngine :=
  { state := .busy, cstate := .cts, seq := 1#6, cursor := 1#16, id := 5#6, len := 7#16, node := 0#16,
    buf := [(0, 0x10#8), (1, 0x11#8), (2, 0x12#8), (3, 0x13#8), (4, 0x14#8), (5, 0x15#8), (6, 0x16#8)],
    ack := false, stamp := 100#32 }
def sent7 : State := withTx tx7
/-- The same with an acknowledgment pending. -/
def acked7 : State := withTx { tx7 with ack := true }
/-- After T3's first CF, acknowledged. -/
def mid7 : State := withTx { tx7 with cursor := 4#16, seq := 2#6, stamp := 101#32, ack := true }
/-- After T3's second CF, acknowledged. -/
def last7 : State := withTx { tx7 with cstate := .init, cursor := 7#16, seq := 3#6, stamp := 102#32, ack := true }

/-- After vector D-3. -/
def rx7 : RxEngine :=
  { cstate := .cts, busy := .rxBusy, seq := 1#6, cursor := 1#16, id := 5#6, len := 7#16, buf := [(0, 0x10#8)] }
def got1 : State := withRx rx7
/-- After vector D-4. -/
def got4 : State :=
  withRx { rx7 with seq := 2#6, cursor := 4#16, buf := [(0, 0x10#8), (1, 0x11#8), (2, 0x12#8), (3, 0x13#8)] }
/-- After an FF that announces `len` bytes, the first being 0x10 (T11). -/
def gotFF (len : Length) : State := withRx { rx7 with len := len }

/-! ### WellFormed and the rejections of the decoder -/

theorem test_wf_payload_short : wellFormed (.txSend 1#6 2#16 [0x01#8] 0#16 0#32 true) = false := by decide
theorem test_wf_payload_long : wellFormed (.txSend 1#6 0#16 [0x01#8] 0#16 0#32 true) = false := by decide
theorem test_wf_payload_fits : wellFormed (.txSend 1#6 1#16 [0x01#8] 0#16 0#32 true) = true := by decide

theorem test_reject_empty : decode (.op []) = .error .noCode := rfl
theorem test_reject_code : decode (.op [0x12#8]) = .error (.codeTooWide 0x12#8) := rfl
theorem test_reject_extra_byte : decode (.op [0x0#8, 0x0#8]) = .error (.argumentBytes 0) := rfl
theorem test_reject_missing_byte : decode (.op [0x9#8, 0x0#8]) = .error (.argumentBytes 9) := rfl
theorem test_reject_wide_id :
    decode (.op [0x1#8, 0x40#8, 0x0#8, 0x0#8, 0x0#8, 0x0#8, 0x0#8, 0x0#8, 0x0#8, 0x0#8, 0x0#8]) =
      .error (.idTooWide 0x40#8) := rfl
theorem test_reject_wr_ok :
    decode (.op [0x3#8, 0x0#8, 0x0#8, 0x0#8, 0x0#8, 0x2#8]) = .error (.wrOkTooWide 0x2#8) := rfl
theorem test_reject_short_frame : decode (.frame 0#16 [0x41#8, 0x11#8, 0x12#8]) = .error (.frameBytes 3) := rfl

/-! ### Decoding: a word of every row, from R72 to R74, R78 and R85 -/

-- E1: `[0x05(FF,id=5), 0x00,0x07, 0x10]`; bits 00 000101.
theorem test_decode_ff : decode (.frame 0#16 [0b00000101#8, 0x00#8, 0x07#8, 0x10#8]) = .ok (.ff 0 5#6 7#16 0x10#8) := rfl
-- E1: `[0x41(CF,seq=1),0x11,0x12,0x13]`; bits 01 000001.
theorem test_decode_cf :
    decode (.frame 0#16 [0b01000001#8, 0x11#8, 0x12#8, 0x13#8]) = .ok (.cf 0 1#6 0x11#8 0x12#8 0x13#8) := rfl
-- V2: `[0xBF, 0x00, 0x01, 0xAB]`; bits 10 111111.
theorem test_decode_sf :
    decode (.frame 0xFFFF#16 [0b10111111#8, 0x00#8, 0x01#8, 0xAB#8]) = .ok (.sf 0xFFFF#16 63#6 1#16 0xAB#8) := rfl
-- T10: `[0xFF, 0x12, 0x34, 0x56]`, `ftype = 3`.
theorem test_decode_ft3 :
    decode (.frame 3#16 [0b11111111#8, 0x12#8, 0x34#8, 0x56#8]) = .ok (.ft3 3#16 63#6 0x12#8 0x34#8 0x56#8) := rfl
-- The length is big-endian (R75): V6, 0x05DB = 1499.
theorem test_decode_length :
    decode (.frame 0#16 [0x0A#8, 0x05#8, 0xDB#8, 0x00#8]) = .ok (.ff 0 10#6 1499#16 0x00#8) := rfl
theorem test_decode_reset : decode (.op [0x0#8]) = .ok .reset := rfl
-- P4 step 2: 0x1, 3, 5, `01 02 03 04 05`, -1, 10, 1.
theorem test_decode_txSend :
    decode (.op [0x1#8, 3#8, 0#8, 5#8, 1#8, 2#8, 3#8, 4#8, 5#8, 0xFF#8, 0xFF#8, 0#8, 0#8, 0#8, 10#8, 1#8]) =
      .ok (.txSend 3#6 5#16 [1#8, 2#8, 3#8, 4#8, 5#8] 0xFFFF#16 10#32 true) := rfl
theorem test_decode_txAck : decode (.op [0x2#8]) = .ok .txAck := rfl
-- P2 step 5: 0x3, 5500 = 0x157C, 1.
theorem test_decode_tick : decode (.op [0x3#8, 0#8, 0#8, 0x15#8, 0x7C#8, 1#8]) = .ok (.tick 5500#32 true) := rfl
theorem test_decode_txTimeoutEvt : decode (.op [0x4#8]) = .ok .txTimeoutEvt := rfl
theorem test_decode_txIoError : decode (.op [0x5#8]) = .ok .txIoError := rfl
theorem test_decode_txReset : decode (.op [0x6#8]) = .ok .txReset := rfl
-- P4 step 3: 0x7, 3, `03 00 05 01`.
theorem test_decode_rxFrame :
    decode (.op [0x7#8, 0#8, 3#8, 0x03#8, 0x00#8, 0x05#8, 0x01#8]) = .ok (.rxFrame 3#16 0x03#8 0x00#8 0x05#8 0x01#8) := rfl
theorem test_decode_rxReset : decode (.op [0x8#8]) = .ok .rxReset := rfl
-- P1 step 13 and T16: 0x9, 1499 = 0x05DB.
theorem test_decode_rxRead : decode (.op [0x9#8, 0x05#8, 0xDB#8]) = .ok (.rxRead 1499#16) := rfl
theorem test_decode_status : decode (.op [0xA#8]) = .ok .status := rfl
theorem test_decode_reservedB : decode (.op [0xB#8]) = .ok .reservedB := rfl
theorem test_decode_reservedC : decode (.op [0xC#8]) = .ok .reservedC := rfl
theorem test_decode_reservedD : decode (.op [0xD#8]) = .ok .reservedD := rfl
theorem test_decode_reservedE : decode (.op [0xE#8]) = .ok .reservedE := rfl
theorem test_decode_reservedF : decode (.op [0xF#8]) = .ok .reservedF := rfl

-- Numbered as the table numbers them: `W[31:24] = F[0]` (R9); a 4-bit operation code.
theorem test_table_frame_word : decodeTableWord 32 0x05000710 = some (.ff 0 5#6 7#16 0x10#8) := rfl
theorem test_table_op_word : decodeTableWord 8 0xA = some .status := rfl

/-! ### One step of each instruction -/

-- P1 step 3: `status=SUCCESS wr=(0, [0x05, 0x00, 0x07, 0x10])`.
theorem test_txSend_writes_ff :
    outOf (.txSend 5#6 7#16 payload7 0#16 100#32 true) State.reset =
      some { wr := some ⟨0#16, ⟨0x05#8, 0x00#8, 0x07#8, 0x10#8⟩⟩ } := by decide
-- P1, state after step 3.
theorem test_txSend_state : nextOf (exec (.txSend 5#6 7#16 payload7 0#16 100#32 true) State.reset) =
    some (sent7.setResult { wr := some ⟨0#16, ⟨0x05#8, 0x00#8, 0x07#8, 0x10#8⟩⟩ }) := by decide
-- T2: in `IDLE` the acknowledgment is dropped; T3: `(BUSY/INIT, 7, 3, 1)`.
theorem test_txAck_idle : txOf .txAck State.reset = some (.idle, .init, 0, 1, false) := by decide
theorem test_txAck_busy :
    txOf .txAck (withTx { last7.tx with ack := false }) = some (.busy, .init, 7, 3, true) := by decide
-- T3: the second CF, `wr=(0, [0x42, 0x14, 0x15, 0x16])`, Tx `(BUSY/INIT, 7, 3, 0)`.
theorem test_tick_cf : outOf (.tick 102#32 true) mid7 =
    some { wr := some ⟨0#16, ⟨0x42#8, 0x14#8, 0x15#8, 0x16#8⟩⟩ } ∧
    txOf (.tick 102#32 true) mid7 = some (.busy, .init, 7, 3, false) := by decide
-- T4 (b): the time base wraps; elapsed 1000 is not yet a timeout, 1001 is.
theorem test_tick_timeout :
    outOf (.tick 0x000002E8#32 true) (withTx { tx7 with stamp := 0xFFFFFF00#32, node := 4#16 }) = some {} ∧
    outOf (.tick 0x000002E9#32 true) (withTx { tx7 with stamp := 0xFFFFFF00#32, node := 4#16 }) =
      some { ev := some ⟨.txTimeout, 4#16, none⟩ } := by decide
-- T7.
theorem test_txTimeoutEvt : outOf .txTimeoutEvt (withTx { tx7 with node := 0xFFFF#16 }) =
    some { ev := some ⟨.txTimeout, 0xFFFF#16, none⟩ } := by decide
theorem test_txTimeoutEvt_idle : outOf .txTimeoutEvt State.reset = some {} := by decide
theorem test_txIoError : outOf .txIoError (withTx { tx7 with node := 0xFFFF#16 }) =
    some { ev := some ⟨.failure, 0xFFFF#16, none⟩ } ∧
    txOf .txIoError acked7 = some (.idle, .init, 0, 1, false) := by decide
-- T15.
theorem test_txReset : txOf .txReset mid7 = some (.idle, .init, 0, 1, false) := by decide
theorem test_txReset_keeps :
    (nextOf (exec .txReset mid7)).map (fun t => (t.tx.id, t.tx.len, t.tx.stamp, t.tx.buf)) =
      some (5#6, 7#16, 101#32, tx7.buf) := by decide
theorem test_rxReset : rxOf .rxReset got4 = some (.init, .rxIdle, 0, 1) := by decide
theorem test_reset : nextOf (exec .reset { mid7 with rx := got4.rx }) =
    some { State.reset with
      tx := { TxEngine.atReset with id := 5#6, len := 7#16, stamp := 101#32, buf := tx7.buf }
      rx := { RxEngine.atReset with id := 5#6, len := 7#16, buf := got4.rx.buf }
      result := some {} } := by decide
-- D-1: `RX_FRAME node=2 [0x85, 0x00, 0x00, 0x00]`.
theorem test_rxFrame_sf : outOf (.rxFrame 2#16 0x85#8 0x00#8 0x00#8 0x00#8) State.reset =
    some { ev := some ⟨.rxMsg, 2#16, some ⟨5#6, 0#16⟩⟩ } ∧
    rxbOf (.rxFrame 2#16 0x85#8 0x00#8 0x00#8 0x00#8) State.reset = some [] := by decide
-- T14: after `seq` 63 comes 0.
theorem test_rxFrame_wrap :
    rxOf (.rxFrame 0xFFFF#16 0x7F#8 0xEB#8 0xEC#8 0xED#8)
      (withRx { rx7 with seq := 63#6, cursor := 187#16, id := 33#6, len := 191#16 }) = some (.cts, .rxBusy, 190, 0) := by decide
-- T11 (a): an SF announcing 7 stores one byte.
theorem test_sf : outOf (.sf 0#16 5#6 7#16 0x10#8) State.reset = some { ev := some ⟨.rxMsg, 0#16, some ⟨5#6, 7#16⟩⟩ } ∧
    rxbOf (.sf 0#16 5#6 7#16 0x10#8) State.reset = some [(0, 0x10#8)] := by decide
-- P4 step 9: an SF in `CTS` drops the partial message.
theorem test_sf_in_cts : outOf (.sf 3#16 4#6 0#16 0x00#8) (gotFF 5#16) =
    some { ev := some ⟨.rxMsg, 3#16, some ⟨4#6, 0#16⟩⟩ } ∧
    rxOf (.sf 3#16 4#6 0#16 0x00#8) (gotFF 5#16) = some (.init, .rxIdle, 0, 1) := by decide
-- D-3, and T13: `RX_EXCEEDED_CAPACITY` at 1500, nothing stored.
theorem test_ff : nextOf (exec (.ff 0xFFFF#16 5#6 7#16 0x10#8) State.reset) = some (got1.setResult {}) := by decide
theorem test_ff_capacity : outOf (.ff 0#16 5#6 1500#16 0x20#8) got1 =
    some { ev := some ⟨.rxExceededCapacity, 0#16, none⟩ } ∧
    rxbOf (.ff 0#16 5#6 1500#16 0x20#8) got1 = some [(0, 0x10#8)] := by decide
-- D-5.
theorem test_cf : outOf (.cf 0xFFFF#16 2#6 0x14#8 0x15#8 0x16#8) got4 =
    some { ev := some ⟨.rxMsg, 0xFFFF#16, some ⟨5#6, 7#16⟩⟩ } ∧
    rxbOf (.cf 0xFFFF#16 2#6 0x14#8 0x15#8 0x16#8) got4 = some tx7.buf := by decide
-- D-6: the pad bytes are not stored.
theorem test_cf_pad : rxbOf (.cf 0#16 1#6 0xAD#8 0x77#8 0x99#8) (gotFF 2#16) = some [(0, 0x10#8), (1, 0xAD#8)] := by decide
-- T10: type 3 in `CTS` loses the partial message.
theorem test_ft3 : outOf (.ft3 3#16 63#6 0x12#8 0x34#8 0x56#8) got4 =
    some { ev := some ⟨.rxInvalidFrame, 3#16, none⟩ } ∧
    rxOf (.ft3 3#16 63#6 0x12#8 0x34#8 0x56#8) got4 = some (.init, .rxIdle, 0, 1) := by decide
-- T16.
theorem test_rxRead : outOf (.rxRead 3#16) got4 = some { data := some 0x13#8 } := by decide
theorem test_rxRead_outside : (outOf (.rxRead 1500#16) got4).map Result.status = some .failed := rfl
theorem test_status : outOf .status sent7 = some { busy := some ⟨true, false⟩ } ∧
    outOf .status got1 = some { busy := some ⟨false, true⟩ } := by decide
theorem test_reservedB : outOf .reservedB sent7 = some { status := .failed } := by decide
theorem test_reservedC : outOf .reservedC sent7 = some { status := .failed } := by decide
theorem test_reservedD : outOf .reservedD got1 = some { status := .failed } := by decide
theorem test_reservedE : outOf .reservedE got1 = some { status := .failed } := by decide
theorem test_reservedF : outOf .reservedF State.reset = some { status := .failed } := by decide

/-! ### Witnesses: states and operands that meet the hypotheses of each obligation -/

/-- What `exec` answers when it answers a next state: a witness of `exec i s = .next t`. -/
def answers (i : Instr) (s : State) : Prop := ∃ t, exec i s = .next t

/-- A witness of an event's hypotheses: an operation, its next state, its outputs and its event. -/
def raises (i : Instr) (s : State) (e : Event) : Prop :=
  ∃ t r, exec i s = .next t ∧ t.result = some r ∧ r.ev = some e

/-- A witness of a status's hypotheses. -/
def returns (i : Instr) (s : State) (st : Status) : Prop :=
  ∃ t r, exec i s = .next t ∧ t.result = some r ∧ r.status = st

theorem witness_ResetResetsBothEngines :
    answers .reset sent7 ∧ (∃ a, exec .txReset sent7 = .next a ∧ answers .rxReset a) ∧
      ∃ a, exec .rxReset got4 = .next a ∧ answers .txReset a :=
  ⟨⟨_, rfl⟩, ⟨_, rfl, _, rfl⟩, ⟨_, rfl, _, rfl⟩⟩

theorem witness_TxResetResetsTxEngine : answers .txReset mid7 := ⟨_, rfl⟩

theorem witness_RxResetResetsRxEngine : answers .rxReset got4 := ⟨_, rfl⟩

theorem tx7_inv : TxInv Config.defaults tx7 where
  idle := fun h => nomatch h
  fits := fun _ => by decide
  mid := fun _ _ => ⟨by decide, by decide, by decide, 0, by decide, by decide⟩
  framed := fun _ h => nomatch h
  written := fun _ => by decide

theorem rx4_inv : RxInv Config.defaults got4.rx where
  init := fun h => nomatch h
  cts := fun _ => ⟨rfl, by decide, by decide⟩
  count := fun _ => ⟨1, by decide, by decide, Or.inl (by decide)⟩

theorem witness_StatusReadsBusyFlags :
    sent7.tx.state = .busy ∧ got1.tx.state = .idle ∧ RxInv got4.params got4.rx ∧
      returns (.txSend 5#6 0#16 [] 0#16 0#32 true) got1 .success ∧
      returns (.txSend 5#6 1500#16 [] 0#16 0#32 true) got1 .exceededCapacity :=
  ⟨rfl, rfl, rx4_inv, ⟨_, _, rfl, rfl, rfl⟩, ⟨_, _, rfl, rfl, rfl⟩⟩

theorem witness_ReservedCodesOnlyFail :
    ∀ i ∈ [Instr.reservedB, .reservedC, .reservedD, .reservedE, .reservedF], i ∈
      [Instr.reservedB, .reservedC, .reservedD, .reservedE, .reservedF] ∧ answers i sent7 := by
  intro i hi
  refine ⟨hi, ?_⟩
  simp only [List.mem_cons, List.not_mem_nil, or_false] at hi
  rcases hi with rfl | rfl | rfl | rfl | rfl <;> exact ⟨_, rfl⟩

/-- Busy; idle at the capacity; idle below it, with 0, 1, 2 and 1499 bytes. -/
theorem witness_TxSendBeginsMessage :
    sent7.tx.state = .busy ∧
    (State.reset.tx.state = .idle ∧ State.reset.params.maxSize ≤ (1500#16 : Length).toNat) ∧
    (State.reset.tx.state = .idle ∧ State.reset.tx.cstate = .init ∧
      ∀ n ∈ [0, 1, 2, 1499], (BitVec.ofNat 16 n).toNat < State.reset.params.maxSize ∧
        (List.replicate n 0x55#8).length = (BitVec.ofNat 16 n).toNat) := by
  have h : ∀ n ∈ [0, 1, 2, 1499], (BitVec.ofNat 16 n).toNat < State.reset.params.maxSize ∧ n = (BitVec.ofNat 16 n).toNat := by
    decide
  exact ⟨rfl, by decide, rfl, rfl, fun n hn => ⟨(h n hn).1, List.length_replicate.trans (h n hn).2⟩⟩

theorem witness_TxAckSetsFlagWhileBusy : sent7.tx.state = .busy ∧ got1.tx.state = .idle ∧ answers .txAck sent7 :=
  ⟨rfl, rfl, _, rfl⟩

/-- Idle; the final acknowledgment; a CF with 1, 3 and more than 3 bytes left; the timeout at `TX_TIMEOUT + 1` and at
`TX_TIMEOUT`. -/
theorem witness_TickAdvancesOrTimesOut :
    got1.tx.state = .idle ∧
    (last7.tx.state = .busy ∧ last7.tx.ack = true ∧ last7.tx.cstate = .init) ∧
    (∀ s ∈ [withTx { mid7.tx with cursor := 6#16 }, mid7, acked7], s.tx.state = .busy ∧ s.tx.ack = true ∧
      s.tx.cstate = .cts ∧ s.tx.cursor.toNat < s.tx.len.toNat ∧ s.tx.len.toNat < s.params.maxSize) ∧
    (sent7.tx.state = .busy ∧ sent7.tx.ack = false ∧
      sent7.params.txTimeout < ((1101#32 : Time).toNat + 2 ^ 32 - sent7.tx.stamp.toNat) % 2 ^ 32 ∧
      ((1100#32 : Time).toNat + 2 ^ 32 - sent7.tx.stamp.toNat) % 2 ^ 32 ≤ sent7.params.txTimeout) := by decide

theorem witness_TxTimeoutEvtEndsSend : sent7.tx.state = .busy ∧ got1.tx.state = .idle := by decide

theorem witness_TxIoErrorEndsSend : last7.tx.state = .busy ∧ State.reset.tx.state = .idle := by decide

theorem witness_BusyEndsOnlyThroughTxReset :
    ∃ t, last7.tx.state = .busy ∧ exec (.tick 103#32 true) last7 = .next t ∧ t.tx.state = .idle := ⟨_, rfl, rfl, rfl⟩

/-- The lengths 1500 and 65535; 0, 1 and 1499. -/
theorem witness_SingleFrameDelivers :
    (∀ n ∈ [1500, 65535], got1.params.maxSize ≤ (BitVec.ofNat 16 n).toNat) ∧
    (∀ n ∈ [0, 1, 1499], (BitVec.ofNat 16 n).toNat < got1.params.maxSize) := by decide

theorem witness_FirstFrameStartsReassembly :
    (∀ n ∈ [1500, 65535], State.reset.params.maxSize ≤ (BitVec.ofNat 16 n).toNat) ∧
    (∀ n ∈ [0, 2, 1499], (BitVec.ofNat 16 n).toNat < State.reset.params.maxSize) := by decide

/-- A CF that goes on, one that completes with 3 bytes, and one that completes with none. -/
theorem witness_ConsecutiveFrameAppends :
    (∀ s ∈ [got1, got4, gotFF 0#16], s.rx.cstate = .cts ∧ s.rx.seq = s.rx.seq ∧ s.rx.len.toNat < s.params.maxSize) ∧
    got1.rx.cursor.toNat + 3 < got1.rx.len.toNat ∧ got4.rx.len.toNat ≤ got4.rx.cursor.toNat + 3 ∧
    (gotFF 0#16).rx.len.toNat ≤ (gotFF 0#16).rx.cursor.toNat + 3 := by decide

theorem witness_WrongSequenceDiscards :
    got1.rx.cstate = .cts ∧ (2#6 : SeqNo) ≠ got1.rx.seq ∧ answers (.cf 0#16 2#6 0x14#8 0x15#8 0x16#8) got1 ∧
      (1499#16 : Length).toNat < got1.params.maxSize := ⟨rfl, by decide, ⟨_, rfl⟩, by decide⟩

theorem witness_InvalidFrameDiscards : State.reset.rx.cstate = .init := rfl

theorem witness_ShortFirstFrameDelivers :
    got1.params.ok ∧ (0#16 : Length).toNat ≤ 1 ∧ (1#16 : Length).toNat ≤ 1 := by decide

theorem witness_RxFrameIsDecode :
    (got4.rx.cstate = .cts ∧ got4.rx.len.toNat < got4.params.maxSize) ∧
    (State.reset.rx.cstate = .cts → State.reset.rx.len.toNat < State.reset.params.maxSize) := by decide

theorem witness_RxReadReadsReceiveBuffer :
    (1499#16 : Index).toNat < got4.params.maxSize ∧ got4.params.maxSize ≤ (1500#16 : Index).toNat := by decide

/-- A frame that raises an event, and one that raises none. -/
theorem witness_SenderOnlyNamesTheEvent :
    raises (.rxFrame 3#16 0x41#8 0x01#8 0x02#8 0x03#8) State.reset ⟨.rxInvalidFrame, 3#16, none⟩ ∧
    ∃ t r, exec (.rxFrame 3#16 0x05#8 0x00#8 0x07#8 0x10#8) State.reset = .next t ∧ t.result = some r ∧ r.ev = none :=
  ⟨⟨_, _, rfl, rfl, rfl⟩, ⟨_, _, rfl, rfl, rfl⟩⟩

/-- Two payload bytes left, and one. -/
theorem witness_PadBytesAreNotRead :
    (gotFF 3#16).rx.len.toNat ≤ (gotFF 3#16).rx.cursor.toNat + 2 ∧
    (gotFF 2#16).rx.len.toNat ≤ (gotFF 2#16).rx.cursor.toNat + 1 := by decide

theorem witness_OnlyFramesAndResetsMoveRx :
    isInbound (.tick 0#32 true) = false ∧ Instr.tick 0#32 true ≠ .rxReset ∧ Instr.tick 0#32 true ≠ .reset ∧
      answers (.tick 0#32 true) got4 := ⟨rfl, by decide, by decide, _, rfl⟩

/-- An operation and a state for each of the seven kinds: for `EventsByOperation`, `EventLeavesEngineAtRest` and
`EventFields`. -/
theorem witness_events :
    raises (.cf 0#16 2#6 0x14#8 0x15#8 0x16#8) got4 ⟨.rxMsg, 0#16, some ⟨5#6, 7#16⟩⟩ ∧
    raises (.cf 0#16 3#6 0x14#8 0x15#8 0x16#8) got4 ⟨.rxSnError, 0#16, none⟩ ∧
    raises (.ff 0#16 5#6 1500#16 0x10#8) got4 ⟨.rxExceededCapacity, 0#16, none⟩ ∧
    raises (.ft3 0#16 0#6 0x00#8 0x00#8 0x00#8) got4 ⟨.rxInvalidFrame, 0#16, none⟩ ∧
    raises (.tick 103#32 true) last7 ⟨.txDone, 0#16, none⟩ ∧
    raises (.tick 1101#32 true) sent7 ⟨.txTimeout, 0#16, none⟩ ∧
    raises .txIoError sent7 ⟨.failure, 0#16, none⟩ :=
  ⟨⟨_, _, rfl, rfl, rfl⟩, ⟨_, _, rfl, rfl, rfl⟩, ⟨_, _, rfl, rfl, rfl⟩, ⟨_, _, rfl, rfl, rfl⟩, ⟨_, _, rfl, rfl, rfl⟩,
    ⟨_, _, rfl, rfl, rfl⟩, ⟨_, _, rfl, rfl, rfl⟩⟩

theorem witness_EventsByOperation : raises .txTimeoutEvt sent7 ⟨.txTimeout, 0#16, none⟩ := ⟨_, _, rfl, rfl, rfl⟩

theorem witness_EventLeavesEngineAtRest : raises (.tick 11#32 false) mid7 ⟨.failure, 0#16, none⟩ := ⟨_, _, rfl, rfl, rfl⟩

theorem witness_EventFields :
    raises (.sf 2#16 5#6 0#16 0x00#8) State.reset ⟨.rxMsg, 2#16, some ⟨5#6, 0#16⟩⟩ := ⟨_, _, rfl, rfl, rfl⟩

/-- The four status codes the block returns. -/
theorem witness_StatusesByOperation :
    returns .status State.reset .success ∧
    returns (.txSend 2#6 1500#16 [] 2#16 0#32 true) sent7 .failed ∧ returns (.rxRead 1500#16) got4 .failed ∧
    returns .reservedF got4 .failed ∧ returns (.txSend 2#6 1500#16 [] 2#16 0#32 true) got4 .exceededCapacity ∧
    returns (.txSend 2#6 0#16 [] 2#16 0#32 false) got4 .mboxWriteFailed ∧ returns (.tick 11#32 false) mid7 .mboxWriteFailed :=
  ⟨⟨_, _, rfl, rfl, rfl⟩, ⟨_, _, rfl, rfl, rfl⟩, ⟨_, _, rfl, rfl, rfl⟩, ⟨_, _, rfl, rfl, rfl⟩, ⟨_, _, rfl, rfl, rfl⟩,
    ⟨_, _, rfl, rfl, rfl⟩, ⟨_, _, rfl, rfl, rfl⟩⟩

theorem witness_EnginesShareNoState :
    isTxOp (.tick 101#32 true) = true ∧ answers (.tick 101#32 true) { acked7 with rx := rx7 } ∧
    isRxOp (.cf 0#16 1#6 0x11#8 0x12#8 0x13#8) = true ∧
      answers (.cf 0#16 1#6 0x11#8 0x12#8 0x13#8) { acked7 with rx := rx7 } := ⟨rfl, ⟨_, rfl⟩, rfl, ⟨_, rfl⟩⟩

theorem witness_ParametersAreConstant :
    answers (.tick 101#32 true) acked7 ∧ ∃ t, step { acked7 with requests := [.op [0x2#8]] } = .next t :=
  ⟨⟨_, rfl⟩, ⟨_, rfl⟩⟩

/-- An operation that is no inbound frame, and one that changes a byte of `TXB`. -/
theorem witness_BuffersWrittenByTheirOperations :
    (isInbound .status = false ∧ answers .status got4) ∧
    ∃ t, exec (.txSend 1#6 1#16 [0xAA#8] 0#16 0#32 true) (withTx { TxEngine.atReset with buf := [(0, 0x00#8)] }) = .next t ∧
      t.byteAt .txb 0 ≠ (withTx { TxEngine.atReset with buf := [(0, 0x00#8)] }).byteAt .txb 0 :=
  ⟨⟨rfl, _, rfl⟩, ⟨_, rfl, by decide⟩⟩

/-- An SF of length 0 and one of 1500, an FF of 1500, a stray CF, and an operation that is no frame. -/
theorem witness_ReceivedPayloadStays :
    ∀ i ∈ [Instr.sf 0#16 0#6 0#16 0x00#8, .sf 0#16 0#6 1500#16 0x00#8, .rxFrame 0#16 0x05#8 0x05#8 0xDC#8 0x10#8,
        .cf 0#16 1#6 0x01#8 0x02#8 0x03#8, .rxRead 0#16],
      State.reset.rx.cstate = .init ∧ answers i State.reset ∧
      (match asFrame i with
        | .sf _ _ len _ => len.toNat = 0 ∨ State.reset.params.maxSize ≤ len.toNat
        | .ff _ _ len _ => State.reset.params.maxSize ≤ len.toNat
        | _ => True) := by
  intro i hi
  refine ⟨rfl, ?_, ?_⟩
  · simp only [List.mem_cons, List.not_mem_nil, or_false] at hi
    rcases hi with rfl | rfl | rfl | rfl | rfl <;> exact ⟨_, rfl⟩
  · simp only [List.mem_cons, List.not_mem_nil, or_false] at hi
    rcases hi with rfl | rfl | rfl | rfl | rfl
    · exact Or.inl rfl
    · exact Or.inr (by decide)
    · exact (by decide : State.reset.params.maxSize ≤ (word16 0x05#8 0xDC#8).toNat)
    · exact True.intro
    · exact True.intro

theorem witness_BufWriteSetsOneByte :
    1499 < State.reset.params.maxSize ∧ State.reset.params.maxSize ≤ 1500 ∧ (1498 : Nat) ≠ 1499 ∧ Space.rxb ≠ .txb := by
  decide

theorem buffers_sent7 : Buffers sent7 := ⟨by decide, by decide, by decide, by decide⟩

theorem witness_StepKeepsBuffers :
    Buffers { sent7 with requests := [.op [0x6#8]] } ∧ ∃ t, step { sent7 with requests := [.op [0x6#8]] } = .next t :=
  ⟨⟨by decide, by decide, by decide, by decide⟩, ⟨_, rfl⟩⟩

theorem witness_StepRunsDecodedInstruction :
    ({ sent7 with requests := [.op [0x2#8], .op [0xA#8]] } : State).requests = .op [0x2#8] :: [.op [0xA#8]] ∧
      decode (.op [0x2#8]) = .ok .txAck := ⟨rfl, rfl⟩

theorem witness_StepWithoutInstruction :
    sent7.requests = [] ∧ ({ sent7 with requests := [.frame 0#16 []] } : State).requests = .frame 0#16 [] :: [] ∧
      decode (.frame 0#16 []) = .error (.frameBytes 0) := ⟨rfl, rfl, rfl⟩

theorem witness_PlacedWordRunsNext : decodeTableWord 32 0x41111213 = some (.cf 0 1#6 0x11#8 0x12#8 0x13#8) := rfl

/-- A power-on state: arbitrary fields. -/
def garbage : State :=
  { params := Config.defaults
    tx := { tx7 with ack := true, cursor := 99#16, seq := 0#6, buf := [(3, 0xFF#8)] }
    rx := { rx7 with len := 65535#16, seq := 9#6 }
    requests := [], result := none, freeDraws := 0 }

theorem powerOn_garbage : PowerOn garbage := ⟨by decide, ⟨by decide, by decide, by decide, by decide⟩⟩

theorem witness_InvariantFromPowerOn : PowerOn garbage := powerOn_garbage

/-- In the middle of a send and of a reassembly at once, with a request waiting. -/
def midway (rs : List Request) : State := { sent7 with rx := got4.rx, requests := rs }

theorem midway_inv (rs : List Request) : BlockInv (midway rs) := ⟨(by decide : Config.defaults.ok), tx7_inv, rx4_inv, ⟨rfl, rfl, rfl, rfl⟩⟩

theorem witness_StepKeepsInvariant :
    BlockInv (midway [.op [0x2#8]]) ∧ ∃ t, step (midway [.op [0x2#8]]) = .next t := ⟨midway_inv _, _, rfl⟩

theorem witness_ReachableStatesSatisfyInvariant : ∃ s, Reachable s ∧ s.tx.ack = false ∧ s.rx.len = 65535#16 :=
  ⟨_, .reset garbage _ powerOn_garbage rfl, rfl, rfl⟩

theorem witness_EveryOperationCompletes :
    BlockInv (midway [.op [0x9#8, 0x05#8, 0xDB#8]]) ∧
      (midway [.op [0x9#8, 0x05#8, 0xDB#8]]).requests = .op [0x9#8, 0x05#8, 0xDB#8] :: [] ∧
      decode (.op [0x9#8, 0x05#8, 0xDB#8]) = .ok (.rxRead 1499#16) := ⟨midway_inv _, rfl, rfl⟩

theorem witness_DecodeOfEncode : wellFormed (.txSend 5#6 7#16 payload7 0xFFFF#16 0xFFFFFFFF#32 true) = true := by decide

theorem witness_EncodeOfDecode : decode (.op [0x9#8, 0x05#8, 0xDB#8]) = .ok (.rxRead 1499#16) := rfl

/-- Messages of 0, 1, 2 and 7 bytes, with as many acknowledgments as frames. -/
theorem witness_SentFramesAreTheClosedForm :
    TxAtRest got1.tx ∧ ∀ n ∈ [0, 1, 2, 7], (BitVec.ofNat 16 n).toNat < got1.params.maxSize ∧
      (payload7.take n).length = (BitVec.ofNat 16 n).toNat ∧
      (List.replicate (1 + cfTotal n) (9#32 : Time)).length = 1 + cfTotal (BitVec.ofNat 16 n).toNat :=
  ⟨⟨rfl, rfl, rfl, rfl, rfl⟩, by decide⟩

theorem witness_RoundTrip :
    TxAtRest got1.tx ∧ RxAtRest sent7.rx ∧ sent7.params.maxSize = got1.params.maxSize ∧
      ∀ n ∈ [0, 1, 2, 7], (BitVec.ofNat 16 n).toNat < got1.params.maxSize ∧
        (payload7.take n).length = (BitVec.ofNat 16 n).toNat ∧
        (List.replicate (1 + cfTotal n) (9#32 : Time)).length = 1 + cfTotal (BitVec.ofNat 16 n).toNat :=
  ⟨⟨rfl, rfl, rfl, rfl, rfl⟩, ⟨rfl, rfl, rfl, rfl⟩, rfl, by decide⟩

/-- The sender and the receiver after the FF of a message of 7 bytes. -/
theorem witness_LinkStepKeepsAgreement :
    BlockInv (midway []) ∧ BlockInv { midway [] with rx := rx7 } ∧ (midway []).tx.state = .busy ∧
    (midway []).tx.cstate = .cts ∧ rx7.cstate = .cts ∧ rx7.id = (midway []).tx.id ∧ rx7.len = (midway []).tx.len ∧
    rx7.cursor = (midway []).tx.cursor ∧ rx7.seq = (midway []).tx.seq ∧
    (∀ j, j < (midway []).tx.cursor.toNat →
      ({ midway [] with rx := rx7 } : State).byteAt .rxb j = (midway []).byteAt .txb j) := by
  refine ⟨midway_inv _, ⟨(midway_inv []).params, tx7_inv, ?_, ⟨rfl, rfl, rfl, rfl⟩⟩, rfl, rfl, rfl, rfl, rfl, rfl, rfl, ?_⟩
  · exact
      { init := fun h => nomatch h
        cts := fun _ => ⟨rfl, by decide, by decide⟩
        count := fun _ => ⟨0, by decide, by decide, Or.inl (by decide)⟩ }
  · intro j hj
    have h : j = 0 := Nat.lt_one_iff.1 hj
    subst h
    rfl

end Sys2Proof.Machine.Tests
end

section
/-!
PROOFS. The state: the invariants R32 and R33 at reset and along every step (O37, O39, O40), the values at reset (O1), the
constant parameters (O29), and the two engines sharing no state (O28). First what the shared ends of the operations leave
alone, then each engine's invariant over the moves that engine makes, then the ends of `Executed`.
-/
namespace Sys2Proof.Machine

/-! ### What the ends of the operations leave alone -/

@[simp] theorem txSendFrame_params (f : Frame) (now : Time) (wrOk : Bool) (s : State) :
    (txSendFrame f now wrOk s).params = s.params := by cases wrOk <;> rfl
@[simp] theorem txSendFrame_rx (f : Frame) (now : Time) (wrOk : Bool) (s : State) :
    (txSendFrame f now wrOk s).rx = s.rx := by cases wrOk <;> rfl
@[simp] theorem txSendFrame_txBuf (f : Frame) (now : Time) (wrOk : Bool) (s : State) :
    (txSendFrame f now wrOk s).tx.buf = s.tx.buf := by cases wrOk <;> rfl

@[simp] theorem txTickFrame_params (f : Frame) (now : Time) (wrOk : Bool) (s : State) :
    (txTickFrame f now wrOk s).params = s.params := by cases wrOk <;> rfl
@[simp] theorem txTickFrame_rx (f : Frame) (now : Time) (wrOk : Bool) (s : State) :
    (txTickFrame f now wrOk s).rx = s.rx := by cases wrOk <;> rfl
@[simp] theorem txTickFrame_txBuf (f : Frame) (now : Time) (wrOk : Bool) (s : State) :
    (txTickFrame f now wrOk s).tx.buf = s.tx.buf := by cases wrOk <;> rfl

/-- The two ends of a matching CF: the message is complete, or more frames are to come (R108). -/
theorem rxFinishCF_cases (node : Node) (s : State) :
    (s.rx.len.toNat ≤ s.rx.cursor.toNat ∧ rxFinishCF node s = raiseRxMsg node s) ∨
    (s.rx.cursor.toNat < s.rx.len.toNat ∧ rxFinishCF node s = s.setResult {}) := by
  by_cases h : s.rx.len.toNat ≤ s.rx.cursor.toNat
  · exact Or.inl ⟨h, by simp [rxFinishCF, rxComplete, h]⟩
  · exact Or.inr ⟨by omega, by simp [rxFinishCF, rxComplete, h]⟩

@[simp] theorem rxFinishCF_params (node : Node) (s : State) : (rxFinishCF node s).params = s.params := by
  rcases rxFinishCF_cases node s with ⟨_, h⟩ | ⟨_, h⟩ <;> rw [h] <;> rfl
@[simp] theorem rxFinishCF_tx (node : Node) (s : State) : (rxFinishCF node s).tx = s.tx := by
  rcases rxFinishCF_cases node s with ⟨_, h⟩ | ⟨_, h⟩ <;> rw [h] <;> rfl
@[simp] theorem rxFinishCF_rxBuf (node : Node) (s : State) : (rxFinishCF node s).rx.buf = s.rx.buf := by
  rcases rxFinishCF_cases node s with ⟨_, h⟩ | ⟨_, h⟩ <;> rw [h] <;> rfl

@[simp] theorem rxStored_params (a b c : Byte) (s : State) : (rxStored a b c s).params = s.params := rfl
@[simp] theorem rxStored_tx (a b c : Byte) (s : State) : (rxStored a b c s).tx = s.tx := rfl
@[simp] theorem rxStored_rx (a b c : Byte) (s : State) :
    (rxStored a b c s).rx = rxAfterCF { s.rx with
      buf := memWriteAll s.rx.buf s.rx.cursor.toNat (cfPayload (cfCount s.rx.len s.rx.cursor) a b c) } := rfl

theorem Received.params_eq {node : Node} {s t : State} (h : Received node s t) : t.params = s.params := by
  cases h with
  | refused id len _ ht => subst ht; rfl
  | single id len m _ _ ht => subst ht; rfl
  | first id len p0 _ ht => subst ht; rfl
  | consecutive a b c _ _ ht => subst ht; simp
  | discarded kind _ ht => subst ht; rfl

theorem Received.tx_eq {node : Node} {s t : State} (h : Received node s t) : t.tx = s.tx := by
  cases h with
  | refused id len _ ht => subst ht; rfl
  | single id len m _ _ ht => subst ht; rfl
  | first id len p0 _ ht => subst ht; rfl
  | consecutive a b c _ _ ht => subst ht; simp
  | discarded kind _ ht => subst ht; rfl

theorem Executed.params_eq {i : Instr} {s t : State} (h : Executed i s t) : t.params = s.params := by
  cases h with
  | inbound _ node _ _ _ hr => exact hr.params_eq
  | sendFrame => rw [txSendFrame_params]; rfl
  | tickFrame => rw [txTickFrame_params]; rfl
  | _ => rfl

theorem exec_params_eq {i : Instr} {s t : State} (h : exec i s = .next t) : t.params = s.params :=
  (executed_of_exec h).params_eq

/-! ### The engines at rest -/

theorem txAtRest_reset : TxAtRest State.reset.tx := ⟨rfl, rfl, rfl, rfl, rfl⟩

theorem rxAtRest_reset : RxAtRest State.reset.rx := ⟨rfl, rfl, rfl, rfl⟩

theorem txAtRest_txResetEngine (t : TxEngine) : TxAtRest (txResetEngine t) := ⟨rfl, rfl, rfl, rfl, rfl⟩

theorem rxAtRest_rxResetEngine (r : RxEngine) : RxAtRest (rxResetEngine r) := ⟨rfl, rfl, rfl, rfl⟩

/-- At rest only R32 (a) asks for something: every other clause speaks of `BUSY`. -/
theorem TxAtRest.inv {p : Config.Params} {t : TxEngine} (h : TxAtRest t) : TxInv p t := by
  obtain ⟨hstate, hcstate, hcursor, hseq, hack⟩ := h
  refine ⟨fun _ => ⟨hcstate, hcursor, hseq, hack⟩, ?_, ?_, ?_, ?_⟩ <;> simp [hstate]

/-- At rest only R33 (a) asks for something: R33 (b) speaks of `CTS`. -/
theorem RxAtRest.inv {p : Config.Params} {r : RxEngine} (h : RxAtRest r) : RxInv p r := by
  obtain ⟨hcstate, hbusy, hcursor, hseq⟩ := h
  refine ⟨fun _ => ⟨hcursor, hseq, hbusy⟩, ?_, ?_⟩ <;> simp [hcstate]

theorem txInv_txResetEngine (p : Config.Params) (t : TxEngine) : TxInv p (txResetEngine t) :=
  (txAtRest_txResetEngine t).inv

theorem rxInv_rxResetEngine (p : Config.Params) (r : RxEngine) : RxInv p (rxResetEngine r) :=
  (rxAtRest_rxResetEngine r).inv

/-! ### The transmit invariant (R32) -/

/-- While `BUSY`, R32 says nothing of `tx_ack` and `tx_stamp`. -/
theorem TxInv.setAckStamp {p : Config.Params} {t : TxEngine} (h : TxInv p t) (hb : t.state = .busy) (ack : Bool)
    (stamp : Time) : TxInv p { t with ack := ack, stamp := stamp } where
  idle hi := by simp [hb] at hi
  fits := h.fits
  mid := h.mid
  framed := h.framed
  written := h.written

/-- A CF sent in `CTS` keeps R32: one more CF is counted, and `INIT` comes back once the cursor is at `tx_len`. -/
theorem TxInv.afterCF {p : Config.Params} {t : TxEngine} (h : TxInv p t) (hb : t.state = .busy) (hc : t.cstate = .cts) :
    TxInv p (txAfterCF t) := by
  obtain ⟨hpos, hlt, htwo, k, hcursor, hseq⟩ := h.mid hb hc
  refine ⟨fun hi => ?_, fun _ => h.fits hb, fun _ hcts => ?_, fun _ hinit => ?_, fun _ => h.written hb⟩
  · simp [hb] at hi
  · have hne : txCursorAfter t.len t.cursor ≠ t.len := fun heq => by simp [txAfterCF, heq] at hcts
    have hmin : min (t.cursor.toNat + 3) t.len.toNat ≠ t.len.toNat := fun heq =>
      hne (BitVec.eq_of_toNat_eq (by rw [txCursorAfter_toNat, heq]))
    simp only [txAfterCF_cursor, txAfterCF_len, txAfterCF_seq, txCursorAfter_toNat, nextSeq_toNat]
    exact ⟨by omega, by omega, htwo, k + 1, by omega, by omega⟩
  · by_contra hne
    have hne' : ¬ txCursorAfter t.len t.cursor = t.len := hne
    simp [txAfterCF, hne', hc] at hinit

/-- The first frame `Encode` builds: an SF, whole, or an FF, which leaves the engine in `CTS` (R100 to R102). -/
theorem encodeNext_first {s s2 : State} {f : Frame} (hb : s.tx.state = .busy) (hc : s.tx.cstate = .init)
    (h : encodeNext s = .ok (.frame f s2)) :
    (s2 = s.setTx { s.tx with cursor := s.tx.len }) ∨
    (2 ≤ s.tx.len.toNat ∧ s2 = s.setTx { s.tx with cursor := 1#16, cstate := .cts }) := by
  unfold encodeNext at h
  rw [if_neg (by simp [hb]), if_neg (by simp [hc])] at h
  split at h
  · cases h
  · split at h
    · obtain ⟨p0, _, _, he⟩ := encodeSF_ok h
      cases he
      exact Or.inl rfl
    · obtain ⟨_, he⟩ := encodeFF_ok h
      cases he
      exact Or.inr ⟨by omega, rfl⟩

/-- The payload `TX_SEND` has copied is written at every index below its length. -/
theorem memRead_memWriteAll_zero_isSome (m : Memory) {bs : List Byte} {j : Nat} (hj : j < bs.length) :
    (memRead (memWriteAll m 0 bs) j).isSome = true := by
  rw [memRead_memWriteAll, if_pos ⟨by omega, by omega⟩]
  simp [hj]

/-- A `TX_SEND` that writes a frame keeps R32 (R121): a refused write leaves the engine at rest, an accepted one leaves it in
the middle of its message, or with the whole of it in one SF. -/
theorem txInv_txSendFrame {id : MsgId} {len : Length} {payload : List Byte} {node : Node} {s s2 : State} {f : Frame}
    (now : Time) (wrOk : Bool) (h : TxInv s.params s.tx) (hi : s.tx.state = .idle)
    (hl : len.toNat < s.params.maxSize) (hp : payload.length = len.toNat)
    (he : encodeNext (txLoaded id len payload node s) = .ok (.frame f s2)) :
    TxInv s.params (txSendFrame f now wrOk s2).tx := by
  obtain ⟨hinit, _, hseq, _⟩ := h.idle hi
  have hwritten : ∀ j, j < len.toNat → (memRead (memWriteAll s.tx.buf 0 payload) j).isSome = true :=
    fun j hj => memRead_memWriteAll_zero_isSome _ (by omega)
  cases wrOk with
  | false => exact txInv_txResetEngine _ _
  | true =>
    rcases encodeNext_first (s := txLoaded id len payload node s) rfl hinit he with rfl | ⟨htwo, rfl⟩
    · exact
        { idle := fun hbusy => TxState.noConfusion hbusy
          fits := fun _ => hl
          mid := fun _ hcts => CodecState.noConfusion (hinit.symm.trans hcts)
          framed := fun _ _ => rfl
          written := fun _ => hwritten }
    · exact
        { idle := fun hbusy => TxState.noConfusion hbusy
          fits := fun _ => hl
          mid := fun _ _ => ⟨Nat.le_refl 1, htwo, htwo, 0, rfl, congrArg BitVec.toNat hseq⟩
          framed := fun _ hcts => CodecState.noConfusion hcts
          written := fun _ => hwritten }

/-- A `TICK` that writes a CF keeps R32 (R123): a refused write leaves the engine at rest. -/
theorem txInv_txTickFrame {s : State} (f : Frame) (now : Time) (wrOk : Bool) (h : TxInv s.params s.tx)
    (hb : s.tx.state = .busy) (hc : s.tx.cstate = .cts) :
    TxInv s.params (txTickFrame f now wrOk ((ackTaken s).setTx (txAfterCF (ackTaken s).tx))).tx := by
  cases wrOk with
  | false => exact txInv_txResetEngine _ _
  | true => exact (h.afterCF hb hc).setAckStamp hb false now

/-- Every operation keeps the transmit invariant. -/
theorem Executed.txInv {i : Instr} {s t : State} (he : Executed i s t) (h : TxInv s.params s.tx) :
    TxInv s.params t.tx := by
  cases he with
  | inbound _ node _ _ _ hr => rw [hr.tx_eq]; exact h
  | sendFrame _ _ _ _ now wrOk _ _ _ _ _ hi hl hp hf => exact txInv_txSendFrame now wrOk h hi hl hp hf
  | tickFrame now wrOk _ hb _ hc => exact txInv_txTickFrame _ now wrOk h hb hc
  | ackBusy _ hb => exact h.setAckStamp hb true _
  | reset | txReset | tickDone | tickTimeout | timeoutBusy | errorBusy => exact txInv_txResetEngine _ _
  | _ => exact h

/-! ### The receive invariant (R33) -/

/-- An FF within the capacity starts the count of R33 (b) at 0, a malformed one (`len <= 1`) among them (R107). -/
theorem rxInv_rxEnterCts {p : Config.Params} (r : RxEngine) (hl : r.len.toNat < p.maxSize) (hseq : r.seq = 1#6) :
    RxInv p (rxEnterCts r) where
  init hinit := CodecState.noConfusion hinit
  cts _ := ⟨rfl, hl, Nat.le_refl 1⟩
  count _ := ⟨0, by simp [hseq], by simp, by simp; omega⟩

/-- A matching CF that does not complete the message counts one more (R108). -/
theorem RxInv.afterCF {p : Config.Params} {r : RxEngine} (h : RxInv p r) (hc : r.cstate = .cts) (m : Memory)
    (hmore : (rxCursorAfter r.len r.cursor).toNat < r.len.toNat) : RxInv p (rxAfterCF { r with buf := m }) := by
  obtain ⟨hbusy, hlen, hpos⟩ := h.cts hc
  obtain ⟨k, hseq, hcursor, _⟩ := h.count hc
  have hafter : (rxCursorAfter r.len r.cursor).toNat = r.cursor.toNat + min 3 (r.len.toNat - r.cursor.toNat) := by
    simp [cfCount]
  refine ⟨fun hinit => ?_, fun _ => ⟨hbusy, hlen, ?_⟩, fun _ => ⟨k + 1, ?_, ?_, Or.inl hmore⟩⟩
  · simp [hc] at hinit
  · simp only [rxAfterCF_cursor]; omega
  · simp only [rxAfterCF_seq, nextSeq_toNat]; omega
  · simp only [rxAfterCF_cursor, rxAfterCF_len]; omega

/-- Every inbound frame keeps the receive invariant: all ends of `Decode` but two leave the engine at rest. -/
theorem Received.rxInv {node : Node} {s t : State} (hr : Received node s t) (h : RxInv s.params s.rx) :
    RxInv s.params t.rx := by
  cases hr with
  | refused id len _ ht => subst ht; exact rxInv_rxResetEngine _ _
  | single id len m _ _ ht => subst ht; exact rxInv_rxResetEngine _ _
  | first id len p0 hl ht => subst ht; exact rxInv_rxEnterCts _ hl rfl
  | consecutive a b c hc _ ht =>
    subst ht
    rcases rxFinishCF_cases node (rxStored a b c s) with ⟨_, hf⟩ | ⟨hmore, hf⟩ <;> rw [hf]
    · exact rxInv_rxResetEngine _ _
    · exact h.afterCF hc _ hmore
  | discarded kind _ ht => subst ht; exact rxInv_rxResetEngine _ _

/-- Every operation keeps the receive invariant. -/
theorem Executed.rxInv {i : Instr} {s t : State} (he : Executed i s t) (h : RxInv s.params s.rx) :
    RxInv s.params t.rx := by
  cases he with
  | inbound _ node _ _ _ hr => exact hr.rxInv h
  | sendFrame => rw [txSendFrame_rx]; exact h
  | tickFrame => rw [txTickFrame_rx]; exact h
  | reset | rxReset => exact rxInv_rxResetEngine _ _
  | _ => exact h

/-! ### The buffers -/

/-- `Buffers` speaks of the two buffers and of `MAX_SIZE` alone. -/
theorem Buffers.congr {s t : State} (h : Buffers s) (hp : t.params = s.params) (htx : t.tx.buf = s.tx.buf)
    (hrx : t.rx.buf = s.rx.buf) : Buffers t := by
  constructor <;> simp only [hp, htx, hrx, h.txWf, h.txWithin, h.rxWf, h.rxWithin]

/-- Another `TXB` in good form. -/
theorem Buffers.newTxb {s t : State} (h : Buffers s) (hp : t.params = s.params) (hrx : t.rx.buf = s.rx.buf)
    (hwf : t.tx.buf.wf = true) (hin : t.tx.buf.within s.params.maxSize = true) : Buffers t :=
  ⟨hwf, by rw [hp]; exact hin, by rw [hrx]; exact h.rxWf, by rw [hp, hrx]; exact h.rxWithin⟩

/-- Another `RXB` in good form. -/
theorem Buffers.newRxb {s t : State} (h : Buffers s) (hp : t.params = s.params) (htx : t.tx.buf = s.tx.buf)
    (hwf : t.rx.buf.wf = true) (hin : t.rx.buf.within s.params.maxSize = true) : Buffers t :=
  ⟨by rw [htx]; exact h.txWf, by rw [hp, htx]; exact h.txWithin, hwf, by rw [hp]; exact hin⟩

/-- `RXB` after an inbound frame: as before, or with a run of bytes written at indices that exist (R106 to R108). -/
theorem Received.rxBuf_eq {node : Node} {s t : State} (hr : Received node s t) :
    t.rx.buf = s.rx.buf ∨
    ∃ i bs, (i + bs.length ≤ s.params.maxSize ∨ bs = []) ∧ t.rx.buf = memWriteAll s.rx.buf i bs := by
  cases hr with
  | refused id len _ ht => subst ht; exact Or.inl rfl
  | single id len m hl hm ht =>
    subst ht
    rcases hm with ⟨_, rfl⟩ | ⟨_, p0, rfl⟩
    · exact Or.inl rfl
    · exact Or.inr ⟨0, [p0], Or.inl (by simp only [List.length_singleton]; omega), rfl⟩
  | first id len p0 hl ht =>
    subst ht
    exact Or.inr ⟨0, [p0], Or.inl (by simp only [List.length_singleton]; omega), rfl⟩
  | consecutive a b c _ hle ht =>
    subst ht
    refine Or.inr ⟨_, _, ?_, rxFinishCF_rxBuf _ _⟩
    rcases hle with hle | hzero
    · exact Or.inl (by rw [cfPayload_length]; omega)
    · exact Or.inr (by simp [cfPayload, hzero])
  | discarded kind _ ht => subst ht; exact Or.inl rfl

theorem Received.buffers {node : Node} {s t : State} (hr : Received node s t) (h : Buffers s) : Buffers t := by
  have htx : t.tx.buf = s.tx.buf := by rw [hr.tx_eq]
  rcases hr.rxBuf_eq with hrx | ⟨i, bs, hle, hrx⟩
  · exact h.congr hr.params_eq htx hrx
  · refine h.newRxb hr.params_eq htx ?_ ?_ <;> rw [hrx]
    · exact memWriteAll_wf _ _ _ h.rxWf
    · exact memWriteAll_within _ _ _ _ hle h.rxWithin

/-- Every operation keeps the form of the buffers: only `TX_SEND` and the inbound frames write them (R51). -/
theorem Executed.buffers {i : Instr} {s t : State} (he : Executed i s t) (h : Buffers s) : Buffers t := by
  cases he with
  | inbound _ node _ _ _ hr => exact hr.buffers h
  | sendFrame id len payload node now wrOk _ f c cs q _ hl hp _ =>
    refine h.newTxb (by rw [txSendFrame_params]; rfl) (by rw [txSendFrame_rx]; rfl) ?_ ?_ <;> rw [txSendFrame_txBuf]
    · exact memWriteAll_wf _ _ _ h.txWf
    · exact memWriteAll_within _ _ _ _ (Or.inl (by omega)) h.txWithin
  | tickFrame =>
    exact h.congr (by rw [txTickFrame_params]; rfl) (by rw [txTickFrame_txBuf]; rfl) (by rw [txTickFrame_rx]; rfl)
  | _ => exact h.congr rfl rfl rfl

/-! ### The invariants together -/

/-- Two engines at rest, under R7's constraint and with buffers in good form. -/
theorem blockInv_of_atRest {s : State} (hp : s.params.ok) (htx : TxAtRest s.tx) (hrx : RxAtRest s.rx) (hb : Buffers s) :
    BlockInv s := ⟨hp, htx.inv, hrx.inv, hb⟩

/-- The requests that the host has still to issue are no part of the invariants. -/
theorem blockInv_setRequests {s : State} (h : BlockInv s) (rs : List Request) : BlockInv { s with requests := rs } :=
  ⟨h.params, h.tx, h.rx, h.buffers.congr rfl rfl rfl⟩

theorem blockInv_exec {i : Instr} {s t : State} (h : BlockInv s) (he : exec i s = .next t) : BlockInv t := by
  have hx := executed_of_exec he
  have hp := hx.params_eq
  exact ⟨hp ▸ h.params, hp ▸ hx.txInv h.tx, hp ▸ hx.rxInv h.rx, hx.buffers h.buffers⟩

theorem blockInv_step {s t : State} (h : BlockInv s) (hs : step s = .next t) : BlockInv t := by
  rcases step_next hs with ⟨_, rfl⟩ | ⟨r, rs, i, _, _, he⟩
  · exact h
  · exact blockInv_exec (blockInv_setRequests h rs) he

/-- `RESET` from any power-on state makes the invariants hold (R200, R202). -/
theorem blockInv_of_powerOn_reset {s t : State} (h : PowerOn s) (ht : exec .reset s = .next t) : BlockInv t := by
  cases ht
  exact blockInv_of_atRest h.params (txAtRest_txResetEngine s.tx) (rxAtRest_rxResetEngine s.rx)
    (h.buffers.congr rfl rfl rfl)

/-- Settles O39: the four parts of `BlockInv`, each kept by every end that `Executed` gives an instruction. -/
theorem stepKeepsInvariant : Obligations.StepKeepsInvariant := fun _ _ => blockInv_step

/-- Settles O40, by induction on how the state was reached. -/
theorem reachableStatesSatisfyInvariant : Obligations.ReachableStatesSatisfyInvariant := by
  intro s hs
  induction hs with
  | reset s t hpower hreset => exact blockInv_of_powerOn_reset hpower hreset
  | issued s rs _ ih => exact blockInv_setRequests ih rs
  | step s t _ hstep ih => exact blockInv_step ih hstep

/-- Settles O1, field by field against R34. -/
theorem resetStateHasSpecifiedValues : Obligations.ResetStateHasSpecifiedValues := ⟨txAtRest_reset, rxAtRest_reset⟩

/-- Settles O37: both engines are at rest, both buffers are empty, and the default parameters are within R7's bounds. -/
theorem invariantAtReset : Obligations.InvariantAtReset :=
  blockInv_of_atRest (by decide : Config.defaults.ok) txAtRest_reset rxAtRest_reset ⟨rfl, rfl, rfl, rfl⟩

/-- Settles O29: the parameters over the ends of `Executed`, and for a step over `exec` without the request it takes. -/
theorem parametersAreConstant : Obligations.ParametersAreConstant := by
  refine ⟨fun i s t => exec_params_eq, fun s t hs => ?_⟩
  rcases step_next hs with ⟨_, rfl⟩ | ⟨r, rs, i, _, _, he⟩
  · rfl
  · exact (exec_params_eq he :)

end Sys2Proof.Machine
end

section
/-!
PROOFS. The two engines share no state (R20, O28). An operation of one engine commutes with putting another engine in the place
of the other: function by function from the buffers up. That it leaves the other engine alone is the case of this in which
the engine put there is the one already there.
-/
namespace Sys2Proof.Machine

/-! ### Answers under a change of state -/

/-- An outcome with the next state changed. -/
def mapNext (g : State → State) : Host.Outcome State Fault Refusal → Host.Outcome State Fault Refusal
  | .next s => .next (g s)
  | .fault f => .fault f
  | .refused r => .refused r

/-- An answer of `Encode` with the state in it changed. -/
def Encoded.mapState (g : State → State) : Encoded → Encoded
  | .frame f s => .frame f (g s)
  | .failure st => .failure st

theorem outcomeOf_map (g : State → State) (x : Except Fault State) : outcomeOf (x.map g) = mapNext g (outcomeOf x) := by
  cases x <;> rfl

/-- A run of `BufWrite`s commutes with whatever one `BufWrite` commutes with. -/
theorem bufWriteAll_comm {g : State → State} {sp : Space}
    (hw : ∀ i v s, bufWrite sp i v (g s) = (bufWrite sp i v s).map g) (bs : List Byte) (i : Nat) (s : State) :
    bufWriteAll sp i bs (g s) = (bufWriteAll sp i bs s).map g := by
  induction bs generalizing i s with
  | nil => rfl
  | cons b bs ih =>
    rw [bufWriteAll, bufWriteAll, hw]
    cases bufWrite sp i b s with
    | error f => rfl
    | ok s' => exact ih (i + 1) s'

/-! ### The transmit engine does not see the receive engine -/

theorem bufRead_txb_setRx (i : Nat) (s : State) (r : RxEngine) : bufRead .txb i (s.setRx r) = bufRead .txb i s := rfl

theorem cfByte_setRx (s : State) (r : RxEngine) (n j : Nat) : cfByte (s.setRx r) n j = cfByte s n j := rfl

theorem bufWrite_txb_setRx (r : RxEngine) (i : Nat) (v : Byte) (s : State) :
    bufWrite .txb i v (s.setRx r) = (bufWrite .txb i v s).map (·.setRx r) := by
  by_cases h : i < s.params.maxSize <;> simp only [bufWrite, State.setRx_params, h, if_true, if_false] <;> rfl

theorem encodeSF_setRx (s : State) (r : RxEngine) :
    encodeSF (s.setRx r) = (encodeSF s).map (Encoded.mapState (·.setRx r)) := by
  simp only [encodeSF, bufRead_txb_setRx, State.setRx_tx, State.setRx_params]
  by_cases h : 1 ≤ s.tx.len.toNat
  · simp only [h, if_true]
    cases bufRead .txb 0 s <;> rfl
  · simp only [h, if_false]
    rfl

theorem encodeFF_setRx (s : State) (r : RxEngine) :
    encodeFF (s.setRx r) = (encodeFF s).map (Encoded.mapState (·.setRx r)) := by
  simp only [encodeFF, bufRead_txb_setRx]
  cases bufRead .txb 0 s <;> rfl

theorem encodeCF_setRx (s : State) (r : RxEngine) :
    encodeCF (s.setRx r) = (encodeCF s).map (Encoded.mapState (·.setRx r)) := by
  simp only [encodeCF, cfByte_setRx, State.setRx_tx]
  cases cfByte s (cfCount s.tx.len s.tx.cursor) 1 with
  | error f => rfl
  | ok a =>
    cases cfByte s (cfCount s.tx.len s.tx.cursor) 2 with
    | error f => rfl
    | ok b => cases cfByte s (cfCount s.tx.len s.tx.cursor) 3 <;> rfl

theorem encodeNext_setRx (s : State) (r : RxEngine) :
    encodeNext (s.setRx r) = (encodeNext s).map (Encoded.mapState (·.setRx r)) := by
  simp only [encodeNext, encodeSF_setRx, encodeFF_setRx, encodeCF_setRx, State.setRx_tx, State.setRx_params]
  repeat' split
  all_goals rfl

theorem txSendFrame_setRx (f : Frame) (now : Time) (wrOk : Bool) (s : State) (r : RxEngine) :
    txSendFrame f now wrOk (s.setRx r) = (txSendFrame f now wrOk s).setRx r := by cases wrOk <;> rfl

theorem txTickFrame_setRx (f : Frame) (now : Time) (wrOk : Bool) (s : State) (r : RxEngine) :
    txTickFrame f now wrOk (s.setRx r) = (txTickFrame f now wrOk s).setRx r := by cases wrOk <;> rfl

theorem txReport_setRx (kind : EventKind) (s : State) (r : RxEngine) :
    txReport kind (s.setRx r) = (txReport kind s).setRx r := by
  simp only [txReport, State.setRx_tx]
  cases s.tx.state <;> rfl

theorem txBegin_setRx (payload : List Byte) (now : Time) (wrOk : Bool) (s : State) (r : RxEngine) :
    txBegin payload now wrOk (s.setRx r) = (txBegin payload now wrOk s).map (·.setRx r) := by
  unfold txBegin
  rw [bufWriteAll_comm (bufWrite_txb_setRx r)]
  cases bufWriteAll .txb 0 payload s with
  | error f => rfl
  | ok s1 =>
    have he : encodeNext (txSetBusy (s1.setRx r)) = _ := encodeNext_setRx (txSetBusy s1) r
    simp only [Except.map, he]
    cases encodeNext (txSetBusy s1) with
    | error f => rfl
    | ok e =>
      cases e with
      | failure st => rfl
      | frame f s2 => exact congrArg Except.ok (txSendFrame_setRx f now wrOk s2 r)

theorem txAdvance_setRx (now : Time) (wrOk : Bool) (s : State) (r : RxEngine) :
    txAdvance now wrOk (s.setRx r) = (txAdvance now wrOk s).map (·.setRx r) := by
  simp only [txAdvance, State.setRx_tx, encodeNext_setRx]
  cases s.tx.cstate with
  | init => rfl
  | cts =>
    cases encodeNext s with
    | error f => rfl
    | ok e =>
      cases e with
      | failure st => rfl
      | frame f s' => exact congrArg Except.ok (txTickFrame_setRx f now wrOk s' r)

theorem execTxSend_setRx (id : MsgId) (len : Length) (payload : List Byte) (node : Node) (now : Time) (wrOk : Bool)
    (s : State) (r : RxEngine) :
    execTxSend id len payload node now wrOk (s.setRx r) =
      mapNext (·.setRx r) (execTxSend id len payload node now wrOk s) := by
  have hbegin : txBegin payload now wrOk (txLoadHeader id len node (s.setRx r)) = _ :=
    txBegin_setRx payload now wrOk (txLoadHeader id len node s) r
  simp only [execTxSend, State.setRx_tx, State.setRx_params, hbegin, outcomeOf_map]
  repeat' split
  all_goals rfl

theorem execTick_setRx (now : Time) (wrOk : Bool) (s : State) (r : RxEngine) :
    execTick now wrOk (s.setRx r) = mapNext (·.setRx r) (execTick now wrOk s) := by
  have hadvance : txAdvance now wrOk (ackTaken (s.setRx r)) = _ := txAdvance_setRx now wrOk (ackTaken s) r
  simp only [ackTaken, State.setRx_tx] at hadvance
  simp only [execTick, State.setRx_tx, State.setRx_params, hadvance, outcomeOf_map]
  cases s.tx.state with
  | idle => rfl
  | busy =>
    by_cases ha : s.tx.ack = true
    · simp only [ha, if_true]
    · by_cases ho : timedOut s.params now s.tx.stamp = true <;> simp only [ha, ho, if_true] <;> rfl

theorem execTxAck_setRx (s : State) (r : RxEngine) : execTxAck (s.setRx r) = mapNext (·.setRx r) (execTxAck s) := by
  simp only [execTxAck, State.setRx_tx]
  cases s.tx.state <;> rfl

/-- An operation of the transmit engine does the same whatever the receive engine is. -/
theorem exec_setRx {i : Instr} (hi : isTxOp i = true) (s : State) (r : RxEngine) :
    exec i (s.setRx r) = mapNext (·.setRx r) (exec i s) := by
  cases i with
  | txSend id len payload node now wrOk => exact execTxSend_setRx id len payload node now wrOk s r
  | txAck => exact execTxAck_setRx s r
  | tick now wrOk => exact execTick_setRx now wrOk s r
  | txTimeoutEvt => exact congrArg Host.Outcome.next (txReport_setRx .txTimeout s r)
  | txIoError => exact congrArg Host.Outcome.next (txReport_setRx .failure s r)
  | txReset => rfl
  | _ => cases hi

/-! ### The receive engine does not see the transmit engine -/

theorem bufRead_rxb_setTx (i : Nat) (s : State) (x : TxEngine) : bufRead .rxb i (s.setTx x) = bufRead .rxb i s := rfl

theorem bufWrite_rxb_setTx (x : TxEngine) (i : Nat) (v : Byte) (s : State) :
    bufWrite .rxb i v (s.setTx x) = (bufWrite .rxb i v s).map (·.setTx x) := by
  by_cases h : i < s.params.maxSize <;> simp only [bufWrite, State.setTx_params, h, if_true, if_false] <;> rfl

theorem rxTakeHeader_setTx (id : MsgId) (len : Length) (s : State) (x : TxEngine) :
    rxTakeHeader id len (s.setTx x) = (rxTakeHeader id len s).setTx x := rfl

theorem rxFinishCF_setTx (node : Node) (s : State) (x : TxEngine) :
    rxFinishCF node (s.setTx x) = (rxFinishCF node s).setTx x := by
  simp only [rxFinishCF, State.setTx_rx]
  by_cases h : rxComplete s.rx.len s.rx.cursor = true <;> simp only [h, if_true] <;> rfl

theorem decodeSF_setTx (node : Node) (id : MsgId) (len : Length) (p0 : Byte) (s : State) (x : TxEngine) :
    decodeSF node id len p0 (s.setTx x) = (decodeSF node id len p0 s).map (·.setTx x) := by
  simp only [decodeSF, State.setTx_params, rxTakeHeader_setTx, bufWrite_rxb_setTx]
  split
  · rfl
  · by_cases h : 1 ≤ len.toNat
    · simp only [h, if_true]
      cases bufWrite .rxb 0 p0 (rxTakeHeader id len s) <;> rfl
    · simp only [h, if_false]
      rfl

theorem decodeFF_setTx (node : Node) (id : MsgId) (len : Length) (p0 : Byte) (s : State) (x : TxEngine) :
    decodeFF node id len p0 (s.setTx x) = (decodeFF node id len p0 s).map (·.setTx x) := by
  simp only [decodeFF, State.setTx_params, rxTakeHeader_setTx, bufWrite_rxb_setTx]
  split
  · rfl
  · cases bufWrite .rxb 0 p0 (rxTakeHeader id len s) <;> rfl

theorem decodeCF_setTx (node : Node) (seq : SeqNo) (a b c : Byte) (s : State) (x : TxEngine) :
    decodeCF node seq a b c (s.setTx x) = (decodeCF node seq a b c s).map (·.setTx x) := by
  simp only [decodeCF, State.setTx_rx, bufWriteAll_comm (bufWrite_rxb_setTx x)]
  split
  · rfl
  · cases bufWriteAll .rxb s.rx.cursor.toNat (cfPayload (cfCount s.rx.len s.rx.cursor) a b c) s with
    | error f => rfl
    | ok s' => exact congrArg Except.ok (rxFinishCF_setTx node (s'.setRx (rxAfterCF s'.rx)) x)

theorem receiveCF_setTx (node : Node) (seq : SeqNo) (a b c : Byte) (s : State) (x : TxEngine) :
    receiveCF node seq a b c (s.setTx x) = (receiveCF node seq a b c s).map (·.setTx x) := by
  simp only [receiveCF, State.setTx_rx, decodeCF_setTx]
  cases s.rx.cstate <;> rfl

theorem decodeInbound_setTx (node : Node) (f : Frame) (s : State) (x : TxEngine) :
    decodeInbound node f (s.setTx x) = (decodeInbound node f s).map (·.setTx x) := by
  simp only [decodeInbound, decodeSF_setTx, decodeFF_setTx, receiveCF_setTx]
  cases ftypeOf f.f0 <;> rfl

theorem execRxRead_setTx (idx : Index) (s : State) (x : TxEngine) :
    execRxRead idx (s.setTx x) = mapNext (·.setTx x) (execRxRead idx s) := by
  simp only [execRxRead, State.setTx_params, bufRead_rxb_setTx]
  by_cases h : s.params.maxSize ≤ idx.toNat
  · simp only [h, if_true]
    rfl
  · simp only [h, if_false]
    cases bufRead .rxb idx.toNat s <;> rfl

/-- An operation of the receive engine does the same whatever the transmit engine is. -/
theorem exec_setTx {i : Instr} (hi : isRxOp i = true) (s : State) (x : TxEngine) :
    exec i (s.setTx x) = mapNext (·.setTx x) (exec i s) := by
  cases i with
  | ff node id len p0 => exact (congrArg outcomeOf (decodeFF_setTx node id len p0 s x)).trans (outcomeOf_map _ _)
  | cf node seq a b c => exact (congrArg outcomeOf (receiveCF_setTx node seq a b c s x)).trans (outcomeOf_map _ _)
  | sf node id len p0 => exact (congrArg outcomeOf (decodeSF_setTx node id len p0 s x)).trans (outcomeOf_map _ _)
  | ft3 => rfl
  | rxFrame node b0 b1 b2 b3 =>
    exact (congrArg outcomeOf (decodeInbound_setTx node ⟨b0, b1, b2, b3⟩ s x)).trans (outcomeOf_map _ _)
  | rxReset => rfl
  | rxRead idx => exact execRxRead_setTx idx s x
  | _ => cases hi

/-! ### Independence, and the frame it gives -/

theorem exec_setRx_next {i : Instr} {s t : State} (hi : isTxOp i = true) (h : exec i s = .next t) (r : RxEngine) :
    exec i (s.setRx r) = .next (t.setRx r) := by rw [exec_setRx hi, h]; rfl

theorem exec_setTx_next {i : Instr} {s t : State} (hi : isRxOp i = true) (h : exec i s = .next t) (x : TxEngine) :
    exec i (s.setTx x) = .next (t.setTx x) := by rw [exec_setTx hi, h]; rfl

theorem rx_eq_of_isTxOp {i : Instr} {s t : State} (hi : isTxOp i = true) (h : exec i s = .next t) : t.rx = s.rx := by
  have hsame : exec i s = .next (t.setRx s.rx) := exec_setRx_next hi h s.rx
  rw [h] at hsame
  have ht : t = t.setRx s.rx := Host.Outcome.next.inj hsame
  rw [ht, State.setRx_rx]

theorem tx_eq_of_isRxOp {i : Instr} {s t : State} (hi : isRxOp i = true) (h : exec i s = .next t) : t.tx = s.tx := by
  have hsame : exec i s = .next (t.setTx s.tx) := exec_setTx_next hi h s.tx
  rw [h] at hsame
  have ht : t = t.setTx s.tx := Host.Outcome.next.inj hsame
  rw [ht, State.setTx_tx]

/-- Settles O28: each engine's operations commute with a change of the other engine, and so leave it as it is. -/
theorem enginesShareNoState : Obligations.EnginesShareNoState := fun _ _ _ h =>
  ⟨fun hi => ⟨rx_eq_of_isTxOp hi h, exec_setRx_next hi h⟩, fun hi => ⟨tx_eq_of_isRxOp hi h, exec_setTx_next hi h⟩⟩

end Sys2Proof.Machine
end

section
/-!
PROOFS. The two buffers: which operation writes which of them (O30, O31), their form kept by every step (O33), one `BufWrite`
(O32); and the step that carries out the next request (O34). First what each end of `Executed` leaves in either buffer, then
the frames that write nothing in `INIT`.
-/
namespace Sys2Proof.Machine

/-! ### The buffers after an instruction (R51) -/

/-- Only an inbound frame writes `RXB`; the resets of the receive engine leave it as it is (R31). -/
theorem Executed.rxBuf_eq {i : Instr} {s t : State} (he : Executed i s t) (hi : isInbound i = false) :
    t.rx.buf = s.rx.buf := by
  cases he with
  | inbound _ node _ _ hnode _ => exact absurd (isInbound_of_inboundNode hnode) (by simp [hi])
  | sendFrame => rw [txSendFrame_rx]; rfl
  | tickFrame => rw [txTickFrame_rx]; rfl
  | _ => rfl

/-- `TXB` is as before, or the instruction is a `TX_SEND` that has copied its payload of `len` bytes there (R121). -/
theorem Executed.txBuf_cases {i : Instr} {s t : State} (he : Executed i s t) :
    t.tx.buf = s.tx.buf ∨
    ∃ id len payload node now wrOk, i = .txSend id len payload node now wrOk ∧ payload.length = len.toNat ∧
      t.tx.buf = memWriteAll s.tx.buf 0 payload := by
  cases he with
  | inbound _ node _ _ _ hr => exact Or.inl (by rw [hr.tx_eq])
  | sendFrame id len payload node now wrOk _ f c cs q _ _ hp _ =>
    exact Or.inr ⟨id, len, payload, node, now, wrOk, rfl, hp, by rw [txSendFrame_txBuf]; rfl⟩
  | tickFrame => exact Or.inl (by rw [txTickFrame_txBuf]; rfl)
  | _ => exact Or.inl rfl

/-- A byte that the storage of two states lists alike, or that neither lists, reads alike. -/
theorem State.byteAt_eq_of_memRead {s t : State} {sp : Space} {j : Nat}
    (h : memRead (t.bufOf sp) j = memRead (s.bufOf sp) j) : t.byteAt sp j = s.byteAt sp j := by
  unfold State.byteAt
  rw [h]

/-- A run of writes from index 0 changes no byte at or above its length. -/
theorem memRead_memWriteAll_zero_of_le (m : Memory) {bs : List Byte} {j : Nat} (h : bs.length ≤ j) :
    memRead (memWriteAll m 0 bs) j = memRead m j := by
  rw [memRead_memWriteAll, if_neg (by omega)]

/-- A byte of `TXB` changes only by a `TX_SEND` whose length is above its index. -/
theorem Executed.txSend_of_byteAt_ne {i : Instr} {s t : State} (he : Executed i s t) {j : Nat}
    (hne : t.byteAt .txb j ≠ s.byteAt .txb j) :
    ∃ id len payload node now wrOk, i = .txSend id len payload node now wrOk ∧ j < len.toNat := by
  rcases he.txBuf_cases with hbuf | ⟨id, len, payload, node, now, wrOk, hi, hp, hbuf⟩
  · exact absurd (State.byteAt_congr s t .txb hbuf j) hne
  · refine ⟨id, len, payload, node, now, wrOk, hi, Nat.lt_of_not_le fun hle => hne ?_⟩
    apply State.byteAt_eq_of_memRead
    rw [State.bufOf_txb, State.bufOf_txb, hbuf, memRead_memWriteAll_zero_of_le _ (by omega)]

/-- Settles O30: each buffer over the ends of `Executed`. -/
theorem buffersWrittenByTheirOperations : Obligations.BuffersWrittenByTheirOperations := fun _ _ _ h =>
  ⟨(executed_of_exec h).rxBuf_eq, fun _ => (executed_of_exec h).txSend_of_byteAt_ne⟩

/-! ### The frames that leave `RXB` alone in `INIT` (R63) -/

/-- `RX_FRAME` and the row of the frame it carries do the same (R140). -/
theorem exec_asFrame (i : Instr) (s : State) : exec (asFrame i) s = exec i s := by
  cases i with
  | rxFrame node b0 b1 b2 b3 => exact (execRxFrame_eq node b0 b1 b2 b3 s).symm
  | _ => rfl

/-- The instruction of a frame is one of the four frame rows, never `RX_FRAME`. -/
theorem asFrame_ne_rxFrame (i : Instr) (node : Node) (b0 b1 b2 b3 : Byte) : asFrame i ≠ .rxFrame node b0 b1 b2 b3 := by
  cases i with
  | rxFrame node' c0 c1 c2 c3 =>
    unfold asFrame frameInstr
    cases hf : ftypeOf c0 <;> simp [hf]
  | _ => simp [asFrame]

/-- An SF without a payload byte and one above the capacity write nothing (R106). -/
theorem execSf_rxBuf_eq {node : Node} {id : MsgId} {len : Length} {p0 : Byte} {s t : State}
    (h : execSf node id len p0 s = .next t) (hlen : len.toNat = 0 ∨ s.params.maxSize ≤ len.toNat) :
    t.rx.buf = s.rx.buf := by
  rcases decodeSF_ok (outcomeOf_eq_next.1 h) with ⟨_, rfl⟩ | ⟨_, _, rfl⟩ | ⟨hlt, hpos, _⟩
  · rfl
  · rfl
  · omega

/-- An FF above the capacity writes nothing (R107). -/
theorem execFf_rxBuf_eq {node : Node} {id : MsgId} {len : Length} {p0 : Byte} {s t : State}
    (h : execFf node id len p0 s = .next t) (hlen : s.params.maxSize ≤ len.toNat) : t.rx.buf = s.rx.buf := by
  rcases decodeFF_ok (outcomeOf_eq_next.1 h) with ⟨_, rfl⟩ | ⟨hlt, _⟩
  · rfl
  · omega

/-- A CF in `INIT` is invalid and writes nothing (R110). -/
theorem execCf_rxBuf_eq {node : Node} {seq : SeqNo} {a b c : Byte} {s t : State} (hinit : s.rx.cstate = .init)
    (h : execCf node seq a b c s = .next t) : t.rx.buf = s.rx.buf := by
  rcases receiveCF_ok (outcomeOf_eq_next.1 h) with ⟨_, rfl⟩ | ⟨hcts, _⟩ | ⟨hcts, _⟩
  · rfl
  · exact CodecState.noConfusion (hinit.symm.trans hcts)
  · exact CodecState.noConfusion (hinit.symm.trans hcts)

/-- Settles O31: the four frame rows one by one, whichever way the frame was issued, and O30's fact for every other
instruction. -/
theorem receivedPayloadStays : Obligations.ReceivedPayloadStays := by
  intro i s t hinit h hframe
  rw [← exec_asFrame] at h
  have hrow := asFrame_ne_rxFrame i
  generalize asFrame i = j at h hframe hrow
  cases j with
  | sf node id len p0 => exact execSf_rxBuf_eq h hframe
  | ff node id len p0 => exact execFf_rxBuf_eq h hframe
  | cf node seq a b c => exact execCf_rxBuf_eq hinit h
  | ft3 node low6 b1 b2 b3 => cases h; rfl
  | rxFrame node b0 b1 b2 b3 => exact absurd rfl (hrow node b0 b1 b2 b3)
  | _ => exact (executed_of_exec h).rxBuf_eq rfl

/-! ### The form of the buffers -/

/-- The requests that the host has still to issue are no part of the buffers. -/
theorem buffers_setRequests {s : State} (h : Buffers s) (rs : List Request) : Buffers { s with requests := rs } :=
  h.congr rfl rfl rfl

/-- Settles O33: a step without a request changes nothing, any other is an instruction, whose ends keep the form. -/
theorem stepKeepsBuffers : Obligations.StepKeepsBuffers := by
  intro s t hb hs
  rcases step_next hs with ⟨_, rfl⟩ | ⟨r, rs, i, _, _, he⟩
  · exact hb
  · exact (executed_of_exec he).buffers (buffers_setRequests hb rs)

/-! ### One byte -/

/-- Another storage for one address space leaves the other space as it is. -/
theorem State.bufOf_setBuf_of_ne {sp sp' : Space} (h : sp' ≠ sp) (s : State) (m : Memory) :
    (s.setBuf sp m).bufOf sp' = s.bufOf sp' := by
  cases sp <;> cases sp'
  case txb.txb | rxb.rxb => exact absurd rfl h
  case txb.rxb | rxb.txb => rfl

/-- `BufRead` at an index that does not exist. -/
theorem bufRead_of_le {sp : Space} {i : Nat} {s : State} (h : s.params.maxSize ≤ i) :
    bufRead sp i s = .error (.bufferIndex sp i) := if_neg (Nat.not_lt.2 h)

/-- `BufWrite` at an index that does not exist. -/
theorem bufWrite_of_le {sp : Space} {i : Nat} {v : Byte} {s : State} (h : s.params.maxSize ≤ i) :
    bufWrite sp i v s = .error (.bufferIndex sp i) := if_neg (Nat.not_lt.2 h)

/-- Settles O32: the state `BufWrite` answers, read at its index, at another index and in the other buffer; and the fault of
both accesses at an index that does not exist. -/
theorem bufWriteSetsOneByte : Obligations.BufWriteSetsOneByte := by
  intro sp i v s
  refine ⟨fun hlt => ⟨_, bufWrite_of_lt hlt, ?_, fun j hj => ?_, fun sp' hsp => ?_⟩,
    fun hle => ⟨bufWrite_of_le hle, bufRead_of_le hle⟩⟩
  · rw [bufRead_of_lt (by rwa [State.setBuf_params]), byteAt_setBuf_memWrite, if_pos rfl]
  · rw [byteAt_setBuf_memWrite, if_neg hj]
  · exact State.bufOf_setBuf_of_ne hsp s _

/-! ### The step -/

/-- The next request is the first that the host has issued. -/
theorem fetch_of_requests {s : State} {r : Request} {rs : List Request} (h : s.requests = r :: rs) :
    fetch s = some (r, { s with requests := rs }) := by
  unfold fetch
  rw [h]

/-- Settles O34: `fetch` takes the request, and `decode` names its instruction. -/
theorem stepRunsDecodedInstruction : Obligations.StepRunsDecodedInstruction := by
  intro s r rs i hreq hdec
  unfold step
  rw [fetch_of_requests hreq]
  simp only [hdec]

end Sys2Proof.Machine
end

section
/-!
PROOFS. The encodings: the length field (O44), byte 0 of a frame (O45), words of the table (O46), and decoder and encoder
inverse to each other (O42, O43). For each part of the decoder one lemma says which bytes it accepts and what it answers for
them; read one way these lemmas give O42, read the other way O43.
-/
namespace Sys2Proof

/-! ### The bytes of an argument -/

theorem bytes16_word16 (hi lo : Byte) : bytes16 (word16 hi lo) = [hi, lo] := by
  simp only [bytes16, hiByte_word16, loByte_word16]

theorem bytes32_word32 (b3 b2 b1 b0 : Byte) :
    bytes32 (word32 (word16 b3 b2) (word16 b1 b0)) = [b3, b2, b1, b0] := by
  simp only [bytes32, hiHalf_word32, loHalf_word32, bytes16_word16, List.cons_append, List.nil_append]

/-- A byte within the width of a message id is the byte of that id (R86). -/
theorem setWidth_low6Of {b : Byte} (h : b.toNat < 64) : (low6Of b).setWidth 8 = b := by
  apply BitVec.eq_of_toNat_eq
  rw [BitVec.toNat_setWidth, low6Of_toNat]
  omega

theorem toNat_setWidth_lt (id : MsgId) : (id.setWidth 8 : Byte).toNat < 64 := by
  have h := id.isLt
  rw [BitVec.toNat_setWidth]
  omega

theorem decodeBit_eq_ok {b : Byte} {v : Bool} : decodeBit b = .ok v ↔ b = bitByte v := by
  constructor
  · intro h
    unfold decodeBit at h
    split at h
    · cases h; assumption
    · split at h
      · cases h; assumption
      · cases h
  · rintro rfl
    exact decodeBit_bitByte v

/-! ### What each part of the decoder accepts -/

theorem decodeBare_eq_ok {code : Nat} {op i : Instr} {args : List Byte} :
    decodeBare code op args = .ok i ↔ args = [] ∧ i = op := by
  cases args <;> simp [decodeBare, eq_comm]

theorem decodeTick_eq_ok {args : List Byte} {i : Instr} :
    decodeTick args = .ok i ↔ ∃ now wrOk, args = bytes32 now ++ [bitByte wrOk] ∧ i = .tick now wrOk := by
  constructor
  · intro h
    unfold decodeTick at h
    split at h
    · rename_i t3 t2 t1 t0 w
      split at h
      · rename_i wrOk hbit
        cases h
        exact ⟨_, wrOk, by rw [bytes32_word32, decodeBit_eq_ok.1 hbit]; rfl, rfl⟩
      · cases h
    · cases h
  · rintro ⟨now, wrOk, rfl, rfl⟩
    simp [decodeTick, bytes32, bytes16]

theorem decodeRxFrame_eq_ok {args : List Byte} {i : Instr} :
    decodeRxFrame args = .ok i ↔
      ∃ node b0 b1 b2 b3, args = bytes16 node ++ [b0, b1, b2, b3] ∧ i = .rxFrame node b0 b1 b2 b3 := by
  constructor
  · intro h
    unfold decodeRxFrame at h
    split at h
    · cases h
      exact ⟨_, _, _, _, _, by rw [bytes16_word16]; rfl, rfl⟩
    · cases h
  · rintro ⟨node, b0, b1, b2, b3, rfl, rfl⟩
    simp [decodeRxFrame, bytes16]

theorem decodeRxRead_eq_ok {args : List Byte} {i : Instr} :
    decodeRxRead args = .ok i ↔ ∃ idx, args = bytes16 idx ∧ i = .rxRead idx := by
  constructor
  · intro h
    unfold decodeRxRead at h
    split at h
    · cases h
      exact ⟨_, (bytes16_word16 _ _).symm, rfl⟩
    · cases h
  · rintro ⟨idx, rfl, rfl⟩
    simp [decodeRxRead, bytes16]

/-- The bytes of a `TX_SEND` behind its payload: `node`, `now`, `wr_ok` (R85). -/
def txSendTail (node : Node) (now : Time) (wrOk : Bool) : List Byte := bytes16 node ++ (bytes32 now ++ [bitByte wrOk])

theorem decodeTxSendTail_eq_ok {id : MsgId} {len : Length} {payload tail : List Byte} {i : Instr} :
    decodeTxSendTail id len payload tail = .ok i ↔
      ∃ node now wrOk, tail = txSendTail node now wrOk ∧ i = .txSend id len payload node now wrOk := by
  constructor
  · intro h
    unfold decodeTxSendTail at h
    split at h
    · split at h
      · rename_i wrOk hbit
        cases h
        exact ⟨_, _, wrOk, by rw [txSendTail, bytes16_word16, bytes32_word32, decodeBit_eq_ok.1 hbit]; rfl, rfl⟩
      · cases h
    · cases h
  · rintro ⟨node, now, wrOk, rfl, rfl⟩
    simp [decodeTxSendTail, txSendTail, bytes32, bytes16]

/-- The payload is as long as `len` says, and what follows it is the rest of the arguments (R86). -/
theorem decodeTxSend_eq_ok {args : List Byte} {i : Instr} :
    decodeTxSend args = .ok i ↔
      ∃ id len payload node now wrOk, payloadFits len payload = true ∧
        args = id.setWidth 8 :: hiByte len :: loByte len :: (payload ++ txSendTail node now wrOk) ∧
        i = .txSend id len payload node now wrOk := by
  constructor
  · intro h
    unfold decodeTxSend at h
    split at h
    · rename_i idB l1 l0 rest
      split at h
      · cases h
      · rename_i hid
        split at h
        · cases h
        · rename_i hlen
          obtain ⟨node, now, wrOk, htail, rfl⟩ := decodeTxSendTail_eq_ok.1 h
          refine ⟨_, _, _, node, now, wrOk, ?_, ?_, rfl⟩
          · simp only [payloadFits, List.length_take, beq_iff_eq]
            omega
          · rw [setWidth_low6Of (by omega), hiByte_word16, loByte_word16, ← htail, List.take_append_drop]
    · cases h
  · rintro ⟨id, len, payload, node, now, wrOk, hfit, rfl, rfl⟩
    have hlen : payload.length = len.toNat := by simpa [payloadFits] using hfit
    have hid := toNat_setWidth_lt id
    unfold decodeTxSend
    simp only [word16_hiByte_loByte, low6Of_setWidth, ← hlen, List.take_left, List.drop_left]
    rw [if_neg (by omega), if_neg (by simp), decodeTxSendTail_eq_ok]
    exact ⟨node, now, wrOk, rfl, rfl⟩

theorem decodeFrame_eq_ok {node : Node} {bytes : List Byte} {i : Instr} :
    decodeFrame node bytes = .ok i ↔ ∃ f, bytes = frameBytes f ∧ i = frameInstr node f := by
  constructor
  · intro h
    unfold decodeFrame at h
    split at h
    · cases h
      exact ⟨_, rfl, rfl⟩
    · cases h
  · rintro ⟨f, rfl, rfl⟩
    rfl

/-! ### Decoding an encoding -/

/-- The fields of an FF and an SF are read back (R72, R73, R75). -/
theorem frameInstr_headerFrame_ff (node : Node) (id : MsgId) (len : Length) (p0 : Byte) :
    frameInstr node (headerFrame .ff id len p0) = .ff node id len p0 := by
  simp [frameInstr, headerFrame]

theorem frameInstr_headerFrame_sf (node : Node) (id : MsgId) (len : Length) (p0 : Byte) :
    frameInstr node (headerFrame .sf id len p0) = .sf node id len p0 := by
  simp [frameInstr, headerFrame]

theorem frameInstr_cfFrame (node : Node) (seq : SeqNo) (a b c : Byte) :
    frameInstr node (cfFrame seq a b c) = .cf node seq a b c := by
  simp [frameInstr, cfFrame]

theorem frameInstr_unassigned (node : Node) (low6 : BitVec 6) (b1 b2 b3 : Byte) :
    frameInstr node ⟨headerByte .unassigned low6, b1, b2, b3⟩ = .ft3 node low6 b1 b2 b3 := by
  simp [frameInstr]

/-- Settles O42, by the rows of the table: a frame's fields are read back, an operation's arguments are what its part of the
decoder accepts. -/
theorem decodeOfEncode : Obligations.DecodeOfEncode := by
  intro i hwf
  cases i with
  | ff node id len p0 => exact congrArg Except.ok (frameInstr_headerFrame_ff node id len p0)
  | cf node seq a b c => exact congrArg Except.ok (frameInstr_cfFrame node seq a b c)
  | sf node id len p0 => exact congrArg Except.ok (frameInstr_headerFrame_sf node id len p0)
  | ft3 node low6 b1 b2 b3 => exact congrArg Except.ok (frameInstr_unassigned node low6 b1 b2 b3)
  | txSend id len payload node now wrOk =>
    exact decodeTxSend_eq_ok.2 ⟨id, len, payload, node, now, wrOk, hwf, rfl, rfl⟩
  | tick now wrOk => exact decodeTick_eq_ok.2 ⟨now, wrOk, rfl, rfl⟩
  | rxFrame node b0 b1 b2 b3 => exact decodeRxFrame_eq_ok.2 ⟨node, b0, b1, b2, b3, rfl, rfl⟩
  | rxRead idx => exact decodeRxRead_eq_ok.2 ⟨idx, rfl, rfl⟩
  | _ => rfl

/-! ### Encoding what was decoded -/

/-- The instruction of a frame is encoded as that frame: no bit of it is dropped, those a type 3 frame ignores among them
(R78). -/
theorem encode_frameInstr (node : Node) (f : Frame) : encode (frameInstr node f) = .frame node (frameBytes f) := by
  have hbyte := headerByte_ftypeOf_low6Of f.f0
  unfold frameInstr
  cases htype : ftypeOf f.f0 <;> rw [htype] at hbyte <;> simp [encode, headerFrame, cfFrame, frameBytes, hbyte]

theorem wellFormed_frameInstr (node : Node) (f : Frame) : wellFormed (frameInstr node f) = true := by
  unfold frameInstr
  cases ftypeOf f.f0 <;> rfl

/-- An operation without arguments is the encoding of its instruction. -/
theorem encode_of_decodeBare {n : Nat} {code : Byte} {op i : Instr} {args : List Byte} (hwf : wellFormed op = true)
    (henc : encode op = .op [code]) (h : decodeBare n op args = .ok i) :
    wellFormed i = true ∧ encode i = .op (code :: args) := by
  obtain ⟨rfl, rfl⟩ := decodeBare_eq_ok.1 h
  exact ⟨hwf, henc⟩

/-- An operation that decodes is the encoding of what it decodes to, by the operation codes of R85. -/
theorem encode_of_decodeOp {code : Byte} {args : List Byte} {i : Instr} (h : decodeOp code args = .ok i) :
    wellFormed i = true ∧ encode i = .op (code :: args) := by
  unfold decodeOp at h
  have hcode : BitVec.ofNat 8 code.toNat = code := BitVec.ofNat_toNat 8 code
  generalize code.toNat = n at h hcode
  subst hcode
  match n, h with
  | 0x1, h =>
    obtain ⟨id, len, payload, node, now, wrOk, hfit, rfl, rfl⟩ := decodeTxSend_eq_ok.1 h
    exact ⟨hfit, rfl⟩
  | 0x3, h =>
    obtain ⟨now, wrOk, rfl, rfl⟩ := decodeTick_eq_ok.1 h
    exact ⟨rfl, rfl⟩
  | 0x7, h =>
    obtain ⟨node, b0, b1, b2, b3, rfl, rfl⟩ := decodeRxFrame_eq_ok.1 h
    exact ⟨rfl, rfl⟩
  | 0x9, h =>
    obtain ⟨idx, rfl, rfl⟩ := decodeRxRead_eq_ok.1 h
    exact ⟨rfl, rfl⟩
  | 0x0, h | 0x2, h | 0x4, h | 0x5, h | 0x6, h | 0x8, h | 0xA, h | 0xB, h | 0xC, h | 0xD, h | 0xE, h | 0xF, h =>
    exact encode_of_decodeBare rfl rfl h
  | _ + 16, h => cases h

/-- Settles O43, by the forms of a request. -/
theorem encodeOfDecode : Obligations.EncodeOfDecode := by
  intro r i h
  cases r with
  | op bytes =>
    cases bytes with
    | nil => cases h
    | cons code args => exact encode_of_decodeOp h
  | frame node bytes =>
    obtain ⟨f, rfl, rfl⟩ := decodeFrame_eq_ok.1 h
    exact ⟨wellFormed_frameInstr node f, encode_frameInstr node f⟩

/-! ### The fields of a frame, and words of the table -/

/-- Settles O44, from the laws of the two bytes of a word. -/
theorem lengthIsBigEndian : Obligations.LengthIsBigEndian :=
  ⟨word16_toNat, fun len => ⟨hiByte_toNat len, loByte_toNat len, word16_hiByte_loByte len⟩⟩

/-- Settles O45, from the laws of the header byte, as numbers and as fields. -/
theorem headerByteFields : Obligations.HeaderByteFields :=
  ⟨fun t low6 => ⟨headerByte_toNat t low6, ftypeOf_headerByte t low6, low6Of_headerByte t low6⟩,
    fun f0 => ⟨ftypeCode_ftypeOf f0, low6Of_toNat f0⟩, rfl⟩

/-- Settles O46, by decoding the eight words. -/
theorem writtenOutWordsDecode : Obligations.WrittenOutWordsDecode := ⟨rfl, rfl, rfl, rfl, rfl, rfl, rfl, rfl⟩

end Sys2Proof
end

section
/-!
PROOFS. The outputs of an operation: which operation raises which event (O24) and returns which status (O25); and the pad bytes
of a frame, which the receiver never reads (O22). First the outputs of each shared end, then those of each end of `Executed`.
-/
namespace Sys2Proof.Machine

/-! ### Pad bytes (R79) -/

theorem cfPayload_of_le_two {n : Nat} (h : n ≤ 2) (a b c c' : Byte) : cfPayload n a b c = cfPayload n a b c' := by
  match n, h with
  | 0, _ => rfl
  | 1, _ => rfl
  | 2, _ => rfl

theorem cfPayload_of_le_one {n : Nat} (h : n ≤ 1) (a b c b' c' : Byte) : cfPayload n a b c = cfPayload n a b' c' := by
  match n, h with
  | 0, _ => rfl
  | 1, _ => rfl

theorem cfCount_le {len : Length} {cursor : Cursor} {n : Nat} (h : len.toNat ≤ cursor.toNat + n) :
    cfCount len cursor ≤ n := by
  unfold cfCount
  omega

/-- Of the three bytes of a CF the receiver reads its payload bytes alone (R108). -/
theorem execCf_congr {s : State} {a b c a' b' c' : Byte} (node : Node) (seq : SeqNo)
    (h : cfPayload (cfCount s.rx.len s.rx.cursor) a b c = cfPayload (cfCount s.rx.len s.rx.cursor) a' b' c') :
    execCf node seq a b c s = execCf node seq a' b' c' s := by
  simp only [execCf, receiveCF, decodeCF, h]

/-- An SF of length 0 has no payload byte to read (R106). -/
theorem execSf_zero (node : Node) (id : MsgId) (a b : Byte) (s : State) :
    execSf node id 0#16 a s = execSf node id 0#16 b s := by
  have hzero : ¬ 1 ≤ (0#16 : Length).toNat := by decide
  simp only [execSf, decodeSF, if_neg hzero]

/-- Settles O22: the pad bytes of a CF are not among those its payload takes, an SF of length 0 has only one. -/
theorem padBytesAreNotRead : Obligations.PadBytesAreNotRead := fun _ node low6 a b c b' c' =>
  ⟨fun h => execCf_congr node low6 (cfPayload_of_le_two (cfCount_le h) a b c c'),
    fun h => execCf_congr node low6 (cfPayload_of_le_one (cfCount_le h) a b c b' c'),
    execSf_zero node low6 a b _⟩

/-! ### The outputs of the shared ends -/

theorem txSendFrame_result (f : Frame) (now : Time) (wrOk : Bool) (s : State) :
    (txSendFrame f now wrOk s).result =
      some { status := if wrOk then .success else .mboxWriteFailed, wr := some ⟨s.tx.node, f⟩ } := by
  cases wrOk <;> rfl

theorem txTickFrame_result (f : Frame) (now : Time) (wrOk : Bool) (s : State) :
    (txTickFrame f now wrOk s).result =
      some { status := if wrOk then .success else .mboxWriteFailed, wr := some ⟨s.tx.node, f⟩,
             ev := if wrOk then none else some (txEvent .failure s.tx) } := by
  cases wrOk <;> rfl

/-- The kinds of event that the receive engine raises (R171). -/
def isRxKind (k : EventKind) : Bool :=
  match k with
  | .rxMsg => true
  | .rxSnError => true
  | .rxExceededCapacity => true
  | .rxInvalidFrame => true
  | .txDone => false
  | .txTimeout => false
  | .failure => false

/-- An inbound frame answers `SUCCESS` with at most an event, which is of a receive kind and names the sender (R140). -/
theorem Received.result_eq {node : Node} {s t : State} (hr : Received node s t) :
    ∃ ev, t.result = some { ev := ev } ∧ ∀ e, ev = some e → isRxKind e.kind = true ∧ e.node = node := by
  cases hr with
  | refused id len _ ht => subst ht; exact ⟨_, rfl, fun e he => by cases he; exact ⟨rfl, rfl⟩⟩
  | single id len m _ _ ht => subst ht; exact ⟨_, rfl, fun e he => by cases he; exact ⟨rfl, rfl⟩⟩
  | first id len p0 _ ht => subst ht; exact ⟨none, rfl, fun e he => by cases he⟩
  | consecutive a b c _ _ ht =>
    subst ht
    rcases rxFinishCF_cases node (rxStored a b c s) with ⟨_, hf⟩ | ⟨_, hf⟩ <;> rw [hf]
    · exact ⟨_, rfl, fun e he => by cases he; exact ⟨rfl, rfl⟩⟩
    · exact ⟨none, rfl, fun e he => by cases he⟩
  | discarded kind hk ht =>
    subst ht
    refine ⟨_, rfl, fun e he => ?_⟩
    cases he
    rcases hk with rfl | rfl <;> exact ⟨rfl, rfl⟩

/-! ### Events (R171) -/

/-- Everything that can raise an event, with the kind it raises. -/
theorem Executed.event_cases {i : Instr} {s t : State} {r : Result} {e : Event} (he : Executed i s t)
    (hres : t.result = some r) (hev : r.ev = some e) :
    (inboundNode i = some e.node ∧ isRxKind e.kind = true) ∨
    (∃ now wrOk, i = .tick now wrOk ∧ ∃ kind, isRxKind kind = false ∧ e = txEvent kind s.tx) ∨
    (i = .txTimeoutEvt ∧ e = txEvent .txTimeout s.tx) ∨
    (i = .txIoError ∧ e = txEvent .failure s.tx) := by
  cases he with
  | inbound _ node _ _ hnode hr =>
    obtain ⟨ev, hevr, hkind⟩ := hr.result_eq
    cases hevr.symm.trans hres
    obtain ⟨hk, rfl⟩ := hkind e hev
    exact Or.inl ⟨hnode, hk⟩
  | tickDone now wrOk | tickTimeout now wrOk =>
    cases hres
    cases hev
    exact Or.inr (Or.inl ⟨now, wrOk, rfl, _, rfl, rfl⟩)
  | tickFrame now wrOk =>
    rw [txTickFrame_result] at hres
    cases hres
    cases wrOk <;> cases hev
    exact Or.inr (Or.inl ⟨now, false, rfl, .failure, rfl, rfl⟩)
  | timeoutBusy => cases hres; cases hev; exact Or.inr (Or.inr (Or.inl ⟨rfl, rfl⟩))
  | errorBusy => cases hres; cases hev; exact Or.inr (Or.inr (Or.inr ⟨rfl, rfl⟩))
  | sendFrame =>
    rw [txSendFrame_result] at hres
    cases hres
    cases hev
  | _ => cases hres; cases hev

/-- Settles O24: the four sources of an event, each against the kinds it has. -/
theorem eventsByOperation : Obligations.EventsByOperation := by
  refine ⟨fun i s t r e h hres hev => ?_, rfl⟩
  rcases (executed_of_exec h).event_cases hres hev with
    ⟨hnode, hkind⟩ | ⟨now, wrOk, rfl, kind, hkind, rfl⟩ | ⟨rfl, rfl⟩ | ⟨rfl, rfl⟩
  · have hin := isInbound_of_inboundNode hnode
    cases hk : e.kind <;> simp [hk, isRxKind] at hkind <;> exact hin
  · cases kind <;> simp [isRxKind] at hkind
    case txDone => exact ⟨now, wrOk, rfl⟩
    case txTimeout | failure => exact Or.inl ⟨now, wrOk, rfl⟩
  · exact Or.inr rfl
  · exact Or.inr rfl

/-! ### Status codes (R172) -/

/-- A reserved operation code is no frame (R89, R162). -/
theorem not_isInbound_of_reserved {i : Instr}
    (h : i ∈ [Instr.reservedB, .reservedC, .reservedD, .reservedE, .reservedF]) : isInbound i = false := by
  simp only [List.mem_cons, List.not_mem_nil, or_false] at h
  rcases h with rfl | rfl | rfl | rfl | rfl <;> rfl

/-- Settles O25: the status at every end of `Executed`. -/
theorem statusesByOperation : Obligations.StatusesByOperation := by
  refine ⟨fun i s t h => ?_, rfl⟩
  cases executed_of_exec h with
  | inbound _ node _ _ hnode hr =>
    obtain ⟨ev, hres, _⟩ := hr.result_eq
    refine ⟨_, hres, fun hmem => ?_⟩
    have hin := isInbound_of_inboundNode hnode
    simp [not_isInbound_of_reserved hmem] at hin
  | sendBusy id len payload node now wrOk _ hb =>
    exact ⟨_, rfl, Or.inl ⟨id, len, payload, node, now, wrOk, rfl, hb⟩⟩
  | sendLarge id len payload node now wrOk _ hi hl =>
    exact ⟨_, rfl, id, len, payload, node, now, wrOk, rfl, hi, hl⟩
  | sendFrame id len payload node now wrOk =>
    refine ⟨_, txSendFrame_result _ _ _ _, ?_⟩
    cases wrOk with
    | false => exact Or.inl ⟨id, len, payload, node, now, rfl⟩
    | true => exact fun hmem => by simp at hmem
  | tickFrame now wrOk =>
    refine ⟨_, txTickFrame_result _ _ _ _, ?_⟩
    cases wrOk with
    | false => exact Or.inr ⟨now, rfl⟩
    | true => exact fun hmem => by simp at hmem
  | readFailed idx _ hle => exact ⟨_, rfl, Or.inr (Or.inl ⟨idx, rfl, hle⟩)⟩
  | reserved _ _ hmem => exact ⟨_, rfl, Or.inr (Or.inr hmem)⟩
  | _ => exact ⟨_, rfl, fun hmem => by simp at hmem⟩

end Sys2Proof.Machine
end

section
/-!
PROOFS. One inbound frame: an SF (O13), an FF (O14), a CF with the expected sequence number (O15) and with another one (O16), an
invalid frame (O17), and the FF that announces 0 or 1 bytes (O18). First the bytes a buffer
holds after a run of writes, then for each kind of frame the state that answers it, one lemma for each of its cases.
-/
namespace Sys2Proof.Machine

/-! ### Reading a buffer that a run of bytes was written to -/

/-- A byte of the run is read back at its index. -/
theorem byteAt_of_written {s t : State} {sp : Space} {i : Nat} {bs : List Byte}
    (h : t.bufOf sp = memWriteAll (s.bufOf sp) i bs) {j : Nat} (hj : j < bs.length) :
    bs[j]? = some (t.byteAt sp (i + j)) := by
  unfold State.byteAt
  rw [h, memRead_memWriteAll, if_pos ⟨by omega, by omega⟩, Nat.add_sub_cancel_left, List.getElem?_eq_getElem hj]

/-- A byte outside the run is as before. -/
theorem byteAt_of_not_written {s t : State} {sp : Space} {i : Nat} {bs : List Byte}
    (h : t.bufOf sp = memWriteAll (s.bufOf sp) i bs) {j : Nat} (hj : j < i ∨ i + bs.length ≤ j) :
    t.byteAt sp j = s.byteAt sp j := by
  apply State.byteAt_eq_of_memRead
  rw [h, memRead_memWriteAll, if_neg (by omega)]

/-! ### What an inbound frame leaves alone -/

theorem rxFinishCF_hostKept (node : Node) (s : State) : HostKept s (rxFinishCF node s) := by
  rcases rxFinishCF_cases node s with ⟨_, h⟩ | ⟨_, h⟩ <;> rw [h] <;> exact ⟨rfl, rfl, rfl⟩

/-- No inbound frame moves the parameters, the requests or the free values. -/
theorem Received.hostKept {node : Node} {s t : State} (h : Received node s t) : HostKept s t := by
  cases h with
  | refused id len _ ht => subst ht; exact ⟨rfl, rfl, rfl⟩
  | single id len m _ _ ht => subst ht; exact ⟨rfl, rfl, rfl⟩
  | first id len p0 _ ht => subst ht; exact ⟨rfl, rfl, rfl⟩
  | consecutive a b c _ _ ht =>
    subst ht
    obtain ⟨hparams, hrequests, hdraws⟩ := rxFinishCF_hostKept node (rxStored a b c s)
    exact ⟨hparams, hrequests, hdraws⟩
  | discarded kind _ ht => subst ht; exact ⟨rfl, rfl, rfl⟩

/-! ### Single Frames (R106) -/

/-- The payload of an SF: its one byte, or none where the length is 0. -/
def sfPayload (len : Length) (p0 : Byte) : List Byte := [p0].take len.toNat

@[simp] theorem sfPayload_length (len : Length) (p0 : Byte) : (sfPayload len p0).length = min len.toNat 1 := by
  simp [sfPayload]

/-- The state in which an SF within the capacity raises `RX_MSG`. -/
def rxSingle (id : MsgId) (len : Length) (p0 : Byte) (s : State) : State :=
  (rxTakeHeader id len s).setBuf .rxb (memWriteAll s.rx.buf 0 (sfPayload len p0))

theorem exec_sf_of_le {len : Length} {s : State} (h : s.params.maxSize ≤ len.toNat) (node : Node) (id : MsgId) (p0 : Byte) :
    exec (.sf node id len p0) s = .next (raiseRxError .rxExceededCapacity node (rxTakeHeader id len s)) := by
  obtain ⟨t, ht⟩ := decodeSF_answers node id len p0 s
  rcases decodeSF_ok ht with ⟨_, rfl⟩ | ⟨hlt, _⟩ | ⟨hlt, _⟩
  · exact outcomeOf_eq_next.2 ht
  · omega
  · omega

theorem exec_sf_of_lt {len : Length} {s : State} (h : len.toNat < s.params.maxSize) (node : Node) (id : MsgId) (p0 : Byte) :
    exec (.sf node id len p0) s = .next (raiseRxMsg node (rxSingle id len p0 s)) := by
  obtain ⟨t, ht⟩ := decodeSF_answers node id len p0 s
  have hexec : exec (.sf node id len p0) s = .next t := outcomeOf_eq_next.2 ht
  rcases decodeSF_ok ht with ⟨hle, _⟩ | ⟨_, hzero, rfl⟩ | ⟨_, hpos, rfl⟩
  · omega
  · have hnone : sfPayload len p0 = [] := List.eq_nil_of_length_eq_zero (by simp [hzero])
    rw [hexec, rxSingle, hnone]
    rfl
  · have hone : sfPayload len p0 = [p0] := List.take_of_length_le hpos
    rw [hexec, rxSingle, hone]
    rfl

/-- Settles O13: the byte stored, if any, is the payload of the SF, written from index 0 on. -/
theorem singleFrameDelivers : Obligations.SingleFrameDelivers := by
  intro s node id len p0
  refine ⟨fun hle => exec_sf_of_le hle node id p0, fun hlt => ?_⟩
  have hexec := exec_sf_of_lt hlt node id p0
  have hbuf : (raiseRxMsg node (rxSingle id len p0 s)).bufOf .rxb =
      memWriteAll (s.bufOf .rxb) 0 (sfPayload len p0) := rfl
  refine ⟨_, hexec, (received_of_sf hexec).hostKept, rfl, rfl, rfl, fun hpos => ?_, fun j hj => ?_⟩
  · have hone : sfPayload len p0 = [p0] := List.take_of_length_le hpos
    rw [hone] at hbuf
    exact (Option.some.inj (byteAt_of_written hbuf (j := 0) Nat.zero_lt_one)).symm
  · exact byteAt_of_not_written hbuf (by rw [sfPayload_length]; omega)

/-! ### First Frames (R107) -/

/-- The state after an FF within the capacity. -/
def rxFirst (id : MsgId) (len : Length) (p0 : Byte) (s : State) : State :=
  (((rxTakeHeader id len s).setBuf .rxb (memWrite s.rx.buf 0 p0)).setRx
    (rxEnterCts { rxResetEngine s.rx with id := id, len := len, buf := memWrite s.rx.buf 0 p0 })).setResult {}

theorem exec_ff_of_le {len : Length} {s : State} (h : s.params.maxSize ≤ len.toNat) (node : Node) (id : MsgId) (p0 : Byte) :
    exec (.ff node id len p0) s = .next (raiseRxError .rxExceededCapacity node (rxTakeHeader id len s)) := by
  obtain ⟨t, ht⟩ := decodeFF_answers node id len p0 s
  rcases decodeFF_ok ht with ⟨_, rfl⟩ | ⟨hlt, _⟩
  · exact outcomeOf_eq_next.2 ht
  · omega

theorem exec_ff_of_lt {len : Length} {s : State} (h : len.toNat < s.params.maxSize) (node : Node) (id : MsgId) (p0 : Byte) :
    exec (.ff node id len p0) s = .next (rxFirst id len p0 s) := by
  obtain ⟨t, ht⟩ := decodeFF_answers node id len p0 s
  rcases decodeFF_ok ht with ⟨hle, _⟩ | ⟨_, rfl⟩
  · omega
  · exact outcomeOf_eq_next.2 ht

/-- An FF stores its payload byte at index 0 and nothing else. -/
theorem rxFirst_bufOf (id : MsgId) (len : Length) (p0 : Byte) (s : State) :
    (rxFirst id len p0 s).bufOf .rxb = memWriteAll (s.bufOf .rxb) 0 [p0] := rfl

theorem rxFirst_byteAt_zero (id : MsgId) (len : Length) (p0 : Byte) (s : State) :
    (rxFirst id len p0 s).byteAt .rxb 0 = p0 :=
  (Option.some.inj (byteAt_of_written (rxFirst_bufOf id len p0 s) (j := 0) Nat.zero_lt_one)).symm

theorem rxFirst_byteAt_of_ne {j : Nat} (hj : j ≠ 0) (id : MsgId) (len : Length) (p0 : Byte) (s : State) :
    (rxFirst id len p0 s).byteAt .rxb j = s.byteAt .rxb j :=
  byteAt_of_not_written (rxFirst_bufOf id len p0 s) (by simp only [List.length_singleton]; omega)

/-- Settles O14. -/
theorem firstFrameStartsReassembly : Obligations.FirstFrameStartsReassembly := by
  intro s node id len p0
  refine ⟨fun hle => exec_ff_of_le hle node id p0, fun hlt => ?_⟩
  have hexec := exec_ff_of_lt hlt node id p0
  exact ⟨_, hexec, (received_of_ff hexec).hostKept, rfl, rfl, rfl, rxFirst_byteAt_zero id len p0 s,
    fun _ hj => rxFirst_byteAt_of_ne hj id len p0 s⟩

/-! ### Consecutive Frames (R108 to R110) -/

theorem exec_cf_of_init {s : State} (h : s.rx.cstate = .init) (node : Node) (seq : SeqNo) (a b c : Byte) :
    exec (.cf node seq a b c) s = .next (decodeInvalid node s) := by
  have hok : receiveCF node seq a b c s = .ok (decodeInvalid node s) := by
    unfold receiveCF
    rw [h]
  exact outcomeOf_eq_next.2 hok

theorem exec_cf_of_ne {s : State} {seq : SeqNo} (hc : s.rx.cstate = .cts) (hne : seq ≠ s.rx.seq) (node : Node)
    (a b c : Byte) : exec (.cf node seq a b c) s = .next (decodeSnError node s) := by
  have hok : receiveCF node seq a b c s = .ok (decodeSnError node s) := by
    unfold receiveCF decodeCF
    rw [hc]
    exact if_pos hne
  exact outcomeOf_eq_next.2 hok

theorem exec_cf_of_eq {s : State} {seq : SeqNo} (hc : s.rx.cstate = .cts) (hseq : seq = s.rx.seq)
    (hl : s.rx.len.toNat ≤ s.params.maxSize) (node : Node) (a b c : Byte) :
    exec (.cf node seq a b c) s = .next (rxFinishCF node (rxStored a b c s)) := by
  rw [hseq]
  exact outcomeOf_eq_next.2 (receiveCF_of_match hc hl)

/-- The completion test of R108 after a matching CF, in terms of the cursor before it. -/
theorem rxFinishCF_rxStored_of_lt {s : State} (h : s.rx.cursor.toNat + 3 < s.rx.len.toNat) (node : Node) (a b c : Byte) :
    rxFinishCF node (rxStored a b c s) = (rxStored a b c s).setResult {} := by
  rcases rxFinishCF_cases node (rxStored a b c s) with ⟨hle, _⟩ | ⟨_, heq⟩
  · simp only [rxStored_rx, rxAfterCF_len, rxAfterCF_cursor, rxCursorAfter_toNat, cfCount] at hle
    omega
  · exact heq

theorem rxFinishCF_rxStored_of_le {s : State} (h : s.rx.len.toNat ≤ s.rx.cursor.toNat + 3) (node : Node) (a b c : Byte) :
    rxFinishCF node (rxStored a b c s) = raiseRxMsg node (rxStored a b c s) := by
  rcases rxFinishCF_cases node (rxStored a b c s) with ⟨_, heq⟩ | ⟨hlt, _⟩
  · exact heq
  · simp only [rxStored_rx, rxAfterCF_len, rxAfterCF_cursor, rxCursorAfter_toNat, cfCount] at hlt
    omega

/-- With more than three bytes to come the receive cursor moves by three. -/
theorem rxCursorAfter_of_lt {len : Length} {cursor : Cursor} (h : cursor.toNat + 3 < len.toNat) :
    rxCursorAfter len cursor = BitVec.ofNat 16 (cursor.toNat + 3) := by
  have hthree : cfCount len cursor = 3 := by unfold cfCount; omega
  rw [rxCursorAfter, hthree]

/-- A matching CF stores its payload bytes from the cursor on and nothing else. -/
theorem rxFinishCF_rxStored_bufOf (node : Node) (a b c : Byte) (s : State) :
    (rxFinishCF node (rxStored a b c s)).bufOf .rxb =
      memWriteAll (s.bufOf .rxb) s.rx.cursor.toNat (cfPayload (cfCount s.rx.len s.rx.cursor) a b c) :=
  rxFinishCF_rxBuf node _

theorem cfPayload_cfCount_length (len : Length) (cursor : Cursor) (a b c : Byte) :
    (cfPayload (cfCount len cursor) a b c).length = min 3 (len.toNat - cursor.toNat) := by
  rw [cfPayload_length, cfCount]
  omega

/-- Settles O15: the bytes stored are the payload of the CF, written from the cursor on; the completion test decides the rest. -/
theorem consecutiveFrameAppends : Obligations.ConsecutiveFrameAppends := by
  intro s node seq a b c hc hseq hlt
  have hexec := exec_cf_of_eq hc hseq (Nat.le_of_lt hlt) node a b c
  have hbuf := rxFinishCF_rxStored_bufOf node a b c s
  have hlen := cfPayload_cfCount_length s.rx.len s.rx.cursor a b c
  have hrec := received_of_cf hexec
  refine ⟨_, hexec, hrec.hostKept, hrec.tx_eq, fun j hj => ?_, fun j hj => ?_, fun hmore => ?_, fun hlast => ?_⟩
  · rw [← byteAt_of_written hbuf (hlen.symm ▸ hj)]
    exact (List.getElem?_take_of_lt hj).symm
  · exact byteAt_of_not_written hbuf (hlen.symm ▸ hj)
  · rw [rxFinishCF_rxStored_of_lt hmore, ← rxCursorAfter_of_lt hmore, ← nextSeq_eq_add]
    exact ⟨rfl, rfl⟩
  · rw [rxFinishCF_rxStored_of_le hlast]
    exact ⟨rfl, rfl⟩

/-- Settles O16: the discarding CF leaves the receive engine in `INIT`, where R110 answers every CF and R106 and R107 answer an
SF and an FF as in any state. -/
theorem wrongSequenceDiscards : Obligations.WrongSequenceDiscards := by
  intro s node seq a b c hc hne
  have hexec := exec_cf_of_ne hc hne node a b c
  refine ⟨hexec, fun t ht => ?_⟩
  cases hexec.symm.trans ht
  refine ⟨fun node' seq' x y z => exec_cf_of_init rfl node' seq' x y z, fun node' id len p0 hlt => ?_⟩
  have hfits : len.toNat < (decodeSnError node s).params.maxSize := hlt
  exact ⟨⟨_, exec_sf_of_lt hfits node' id p0, rfl⟩, ⟨_, exec_ff_of_lt hfits node' id p0, rfl, rfl⟩⟩

/-- Settles O17: both are `DecodeInvalid`. -/
theorem invalidFrameDiscards : Obligations.InvalidFrameDiscards :=
  fun _ => ⟨exec_cf_of_init, fun _ _ _ _ _ => rfl⟩

/-- Settles O18: an FF is within any capacity of R7; the CF after it has no payload byte left to store, and completes. -/
theorem shortFirstFrameDelivers : Obligations.ShortFirstFrameDelivers := by
  intro s node node' id len p0 a b c hok hlen
  have hlt : len.toNat < s.params.maxSize := Nat.lt_of_le_of_lt hlen hok.1
  have hfirst := exec_ff_of_lt hlt node id p0
  have hcf := exec_cf_of_eq (s := rxFirst id len p0 s) (seq := 1#6) rfl rfl (Nat.le_of_lt hlt) node' a b c
  have hbuf := rxFinishCF_rxStored_bufOf node' a b c (rxFirst id len p0 s)
  have hcount : (cfPayload (cfCount len 1#16) a b c).length = 0 := by
    rw [cfPayload_cfCount_length]
    change min 3 (len.toNat - 1) = 0
    omega
  have hkept (j : Nat) : (rxFinishCF node' (rxStored a b c (rxFirst id len p0 s))).byteAt .rxb j =
      (rxFirst id len p0 s).byteAt .rxb j :=
    byteAt_of_not_written hbuf (by
      change j < 1 ∨ 1 + (cfPayload (cfCount len 1#16) a b c).length ≤ j
      omega)
  refine ⟨_, _, hfirst, hcf, ?_, ?_, fun j hj => ?_⟩
  · rw [rxFinishCF_rxStored_of_le (show len.toNat ≤ 1 + 3 by omega)]
    rfl
  · rw [hkept, rxFirst_byteAt_zero]
  · rw [hkept, rxFirst_byteAt_of_ne hj]

end Sys2Proof.Machine
end

section
/-!
PROOFS. The link: operations issued in a row, and one acknowledged `TICK` with the CF it writes, at the sender and at the receiver
(O49). A CF is described by the byte sequence it is cut from: the sender cuts it from the payload in `TXB` and pad bytes, and the
receiver, whose `RXB` agrees with a sequence up to the cursor, agrees with it three bytes further after the CF cut from it there.
-/
namespace Sys2Proof.Machine

/-! ### Operations in a row (R60) -/

theorem issue_cons {i : Instr} {is : List Instr} {s t u : State} {r : Result} {rs : List Result}
    (hexec : exec i s = .next t) (hres : t.result = some r) (hrest : issue is t = some (rs, u)) :
    issue (i :: is) s = some (r :: rs, u) := by
  simp only [issue, hexec, hres, hrest]

theorem issue_singleton {i : Instr} {s t : State} {r : Result} (hexec : exec i s = .next t) (hres : t.result = some r) :
    issue [i] s = some ([r], t) := issue_cons hexec hres rfl

/-- What an operation issued first leaves behind when all of them answer. -/
theorem exec_of_issue_cons {i : Instr} {is : List Instr} {s u : State} {rs : List Result}
    (h : issue (i :: is) s = some (rs, u)) :
    ∃ t r rs', exec i s = .next t ∧ t.result = some r ∧ issue is t = some (rs', u) ∧ rs = r :: rs' := by
  simp only [issue] at h
  split at h
  · rename_i t hexec
    split at h
    · rename_i r rs' u' hres hrest
      cases h
      exact ⟨t, r, rs', hexec, hres, hrest, rfl⟩
    · cases h
  · cases h

theorem issue_append {is js : List Instr} {s t u : State} {rs rs' : List Result} (h : issue is s = some (rs, t))
    (h' : issue js t = some (rs', u)) : issue (is ++ js) s = some (rs ++ rs', u) := by
  induction is generalizing s rs with
  | nil => cases h; exact h'
  | cons i is ih =>
    obtain ⟨v, r, rest, hexec, hres, hrest, rfl⟩ := exec_of_issue_cons h
    exact issue_cons hexec hres (ih hrest)

/-! ### A CF and the byte sequence it is cut from -/

/-- The CF with the given number whose bytes are those of `f` from index `c` on (R74). -/
def cfOf (f : Nat → Byte) (seq : SeqNo) (c : Nat) : Frame := cfFrame seq (f c) (f (c + 1)) (f (c + 2))

theorem getElem?_three (f : Nat → Byte) (c : Nat) {j : Nat} (hj : j < 3) :
    [f c, f (c + 1), f (c + 2)][j]? = some (f (c + j)) := by
  match j, hj with
  | 0, _ => rfl
  | 1, _ => rfl
  | 2, _ => rfl

/-- A byte of the next CF is a payload byte exactly where the message has one (R79, R103). -/
theorem cfByteOf_cfCount (s : State) {j : Nat} (hj : j < 3) :
    cfByteOf s (cfCount s.tx.len s.tx.cursor) (j + 1) = sentByte s (s.tx.cursor.toNat + j) := by
  have hiff : j + 1 ≤ cfCount s.tx.len s.tx.cursor ↔ s.tx.cursor.toNat + j < s.tx.len.toNat := by
    unfold cfCount
    omega
  by_cases h : s.tx.cursor.toNat + j < s.tx.len.toNat
  · rw [cfByteOf, if_pos (hiff.2 h), sentByte, if_pos h]
    rfl
  · rw [cfByteOf, if_neg (mt hiff.1 h), sentByte, if_neg h]

theorem nextCF_eq_cfOf (s : State) : nextCF s = cfOf (sentByte s) s.tx.seq s.tx.cursor.toNat := rfl

theorem cfFrameOf_eq_nextCF (s : State) : cfFrameOf s = nextCF s := by
  rw [cfFrameOf, cfByteOf_cfCount s (j := 0) (by decide), cfByteOf_cfCount s (j := 1) (by decide),
    cfByteOf_cfCount s (j := 2) (by decide)]
  rfl

/-! ### The sender: one acknowledged `TICK` (R91, R123) -/

/-- The state after a `TX_ACK` while `BUSY` (R122). -/
def ackPending (s : State) : State := (s.setTx { s.tx with ack := true }).setResult {}

theorem exec_txAck_of_busy {s : State} (h : s.tx.state = .busy) : exec .txAck s = .next (ackPending s) := by
  change execTxAck s = _
  unfold execTxAck
  rw [h]
  rfl

/-- A `TICK` on an acknowledgment does what `txAdvance` does. -/
theorem exec_tick_of_ack {s : State} (hb : s.tx.state = .busy) (ha : s.tx.ack = true) (now : Time) (wrOk : Bool) :
    exec (.tick now wrOk) s = outcomeOf (txAdvance now wrOk (ackTaken s)) := by
  change execTick now wrOk s = _
  unfold execTick
  rw [hb]
  exact if_pos ha

theorem exec_tick_of_init {s : State} (hb : s.tx.state = .busy) (ha : s.tx.ack = true) (hc : s.tx.cstate = .init)
    (now : Time) (wrOk : Bool) :
    exec (.tick now wrOk) s = .next (raiseEvent .txb (txEvent .txDone s.tx) .success none (ackTaken s)) := by
  have hc' : (ackTaken s).tx.cstate = .init := hc
  rw [exec_tick_of_ack hb ha, txAdvance, hc']
  rfl

theorem exec_tick_of_cts {s : State} (hb : s.tx.state = .busy) (ha : s.tx.ack = true) (hc : s.tx.cstate = .cts)
    (hlt : s.tx.cursor.toNat < s.tx.len.toNat) (hl : s.tx.len.toNat ≤ s.params.maxSize) (now : Time) (wrOk : Bool) :
    exec (.tick now wrOk) s =
      .next (txTickFrame (nextCF s) now wrOk ((ackTaken s).setTx (txAfterCF (ackTaken s).tx))) := by
  have hb' : (ackTaken s).tx.state ≠ .idle := by simp [hb]
  have hc' : (ackTaken s).tx.cstate = .cts := hc
  have henc : encodeNext (ackTaken s) =
      .ok (.frame (cfFrameOf (ackTaken s)) ((ackTaken s).setTx (txAfterCF (ackTaken s).tx))) := by
    rw [encodeNext, if_neg hb', if_pos hc', encodeCF_of_lt (s := ackTaken s) hlt hl]
  rw [exec_tick_of_ack hb ha, txAdvance, hc', henc, cfFrameOf_eq_nextCF]
  rfl

/-- The outputs of an operation that wrote a frame and did nothing else that the host sees. -/
def frameOutputs (node : Node) (f : Frame) : Result := { wr := some ⟨node, f⟩ }

/-- The outputs of the `TICK` that reports a message as sent. -/
def doneOutputs (node : Node) : Result := { ev := some ⟨.txDone, node, none⟩ }

/-- The sender after an acknowledged `TICK` in the middle of a message. -/
def txAcked (now : Time) (s : State) : State :=
  (s.setTx { txAfterCF s.tx with ack := false, stamp := now }).setResult (frameOutputs s.tx.node (nextCF s))

theorem issue_ackTick_of_cts {s : State} (hb : s.tx.state = .busy) (hc : s.tx.cstate = .cts)
    (hlt : s.tx.cursor.toNat < s.tx.len.toNat) (hl : s.tx.len.toNat ≤ s.params.maxSize) (now : Time) :
    issue (ackTick now true) s = some ([{}, frameOutputs s.tx.node (nextCF s)], txAcked now s) :=
  issue_cons (exec_txAck_of_busy hb) rfl (issue_singleton (exec_tick_of_cts (s := ackPending s) hb rfl hc hlt hl now true) rfl)

theorem issue_ackTick_of_init {s : State} (hb : s.tx.state = .busy) (hc : s.tx.cstate = .init) (now : Time) :
    issue (ackTick now true) s = some ([{}, doneOutputs s.tx.node], (resetTx s).setResult (doneOutputs s.tx.node)) :=
  issue_cons (exec_txAck_of_busy hb) rfl (issue_singleton (exec_tick_of_init (s := ackPending s) hb rfl hc now true) rfl)

/-- The codec is back in `INIT` exactly when the CF carried the last byte (R103). -/
theorem txAfterCF_cstate (t : TxEngine) :
    (txAfterCF t).cstate = if t.cursor.toNat + 3 < t.len.toNat then t.cstate else .init := by
  have hiff : txCursorAfter t.len t.cursor = t.len ↔ ¬ t.cursor.toNat + 3 < t.len.toNat := by
    rw [← BitVec.toNat_inj, txCursorAfter_toNat]
    omega
  by_cases h : t.cursor.toNat + 3 < t.len.toNat
  · rw [if_pos h]
    exact if_neg fun heq => hiff.1 heq h
  · rw [if_neg h]
    exact if_pos (hiff.2 h)

theorem txCursorAfter_of_lt {len : Length} {cursor : Cursor} (h : cursor.toNat + 3 < len.toNat) :
    txCursorAfter len cursor = BitVec.ofNat 16 (cursor.toNat + 3) := by
  rw [txCursorAfter, Nat.min_eq_left (Nat.le_of_lt h)]

/-! ### The receiver: one CF (R108) -/

theorem exec_loopFrame (src : Node) (f : Frame) (s : State) : exec (loopFrame src f) s = exec (frameInstr src f) s :=
  execRxFrame_eq src f.f0 f.f1 f.f2 f.f3 s

/-- A receiver that agrees with `f` up to its cursor, and the CF cut from `f` there: it agrees with `f` up to the cursor three
bytes further, or to the end of the message, and goes on or delivers. -/
theorem exec_loopFrame_cfOf {f : Nat → Byte} {s : State} (hc : s.rx.cstate = .cts)
    (hlt : s.rx.len.toNat < s.params.maxSize) (hbytes : ∀ j, j < s.rx.cursor.toNat → s.byteAt .rxb j = f j) (src : Node) :
    ∃ t, exec (loopFrame src (cfOf f s.rx.seq s.rx.cursor.toNat)) s = .next t ∧ HostKept s t ∧ t.tx = s.tx ∧
      (∀ j, j < s.rx.cursor.toNat + 3 → j < s.rx.len.toNat → t.byteAt .rxb j = f j) ∧
      (s.rx.cursor.toNat + 3 < s.rx.len.toNat →
        t.rx = { s.rx with
          seq := s.rx.seq + 1#6, cursor := BitVec.ofNat 16 (s.rx.cursor.toNat + 3), buf := t.rx.buf } ∧
        t.result = some {}) ∧
      (s.rx.len.toNat ≤ s.rx.cursor.toNat + 3 →
        RxAtRest t.rx ∧ t.result = some { ev := some ⟨.rxMsg, src, some ⟨s.rx.id, s.rx.len⟩⟩ }) := by
  obtain ⟨t, hexec, hkept, htx, hstored, hrest, hmore, hlast⟩ := consecutiveFrameAppends s src s.rx.seq
    (f s.rx.cursor.toNat) (f (s.rx.cursor.toNat + 1)) (f (s.rx.cursor.toNat + 2)) hc rfl hlt
  refine ⟨t, ?_, hkept, htx, fun j hj hjlen => ?_, hmore, fun hle => ?_⟩
  · rw [exec_loopFrame, cfOf, frameInstr_cfFrame, hexec]
  · by_cases hold : j < s.rx.cursor.toNat
    · rw [hrest j (Or.inl hold), hbytes j hold]
    · obtain ⟨d, rfl⟩ := Nat.exists_eq_add_of_le (Nat.le_of_not_lt hold)
      have hnew := hstored d (by omega)
      rw [getElem?_three f _ (by omega)] at hnew
      exact (Option.some.inj hnew).symm
  · obtain ⟨hrx, hres⟩ := hlast hle
    exact ⟨by rw [hrx]; exact rxAtRest_rxResetEngine s.rx, hres⟩

/-! ### Both -/

/-- Settles O49: the sequence both engines hold is the one that the sender cuts its CFs from. -/
theorem linkStepKeepsAgreement : Obligations.LinkStepKeepsAgreement := by
  intro a b src now ha hb hbusy hcts hbcts hid hlen hcursor hseq hagree
  obtain ⟨_, hlt, _, _⟩ := ha.tx.mid hbusy hcts
  obtain ⟨_, hbfits, _⟩ := hb.rx.cts hbcts
  have hsent (j : Nat) (hj : j < a.tx.len.toNat) : sentByte a j = a.byteAt .txb j := if_pos hj
  have hheld (j : Nat) (hj : j < b.rx.cursor.toNat) : b.byteAt .rxb j = sentByte a j := by
    rw [hcursor] at hj
    rw [hagree j hj, hsent j (by omega)]
  have htick := issue_ackTick_of_cts hbusy hcts hlt (Nat.le_of_lt (ha.tx.fits hbusy)) now
  obtain ⟨t, hexec, _, _, hbytes, hmore, hlast⟩ := exec_loopFrame_cfOf hbcts hbfits hheld src
  rw [hseq, hcursor, ← nextCF_eq_cfOf] at hexec
  rw [hcursor, hlen] at hbytes hmore hlast
  have hcstate : (txAcked now a).tx.cstate = if a.tx.cursor.toNat + 3 < a.tx.len.toNat then a.tx.cstate else .init :=
    txAfterCF_cstate a.tx
  by_cases hgo : a.tx.cursor.toNat + 3 < a.tx.len.toNat
  · obtain ⟨hrx, hres⟩ := hmore hgo
    have hnextSeq : t.rx.seq = nextSeq a.tx.seq := by rw [hrx, ← hseq, nextSeq_eq_add]
    have hnextCursor : t.rx.cursor = txCursorAfter a.tx.len a.tx.cursor := by rw [hrx, txCursorAfter_of_lt hgo]
    refine ⟨_, _, _, t, htick, issue_singleton hexec hres, rfl, Or.inl ⟨rfl, ?_, ?_, hnextCursor, hnextSeq, ?_, ?_, fun j hj => ?_⟩⟩
    · rw [hcstate, if_pos hgo, hcts]
    · rw [hrx]; exact hbcts
    · rw [hrx]; exact hlen
    · rw [hrx]; exact hid
    · have hj' : j < min (a.tx.cursor.toNat + 3) a.tx.len.toNat := txCursorAfter_toNat _ _ ▸ hj
      rw [hbytes j (by omega) (by omega), hsent j (by omega)]
      rfl
  · obtain ⟨hrest, hres⟩ := hlast (by omega)
    refine ⟨_, _, _, t, htick, issue_singleton hexec hres, rfl, Or.inr ⟨by rw [hid], ?_, hrest, fun j hj => ?_⟩⟩
    · rw [hcstate, if_neg hgo]
    · rw [hbytes j (by omega) hj, hsent j hj]

end Sys2Proof.Machine
end

section
/-!
PROOFS. A whole message: the frames it is sent as (O47), and the round trip (O48). On either side the CFs are counted: `k` have
been sent, or taken, and the state of the engine is a function of `k`; one more CF leads from `k` to `k + 1`. The induction is
on the number of CFs still to come. The receiver's half is about the closed form of the frames, so that the round trip needs
of the sender only O47.
-/
namespace Sys2Proof.Machine

/-! ### The closed form (R114) -/

/-- A message of `len` bytes has a CF number `k + 1` exactly when it has a payload byte `3k + 1` (R77). -/
theorem lt_cfTotal_iff {len k : Nat} : k < cfTotal len ↔ 3 * k + 1 < len := by
  unfold cfTotal
  split <;> omega

/-- The `n` CFs after the first `k`. -/
def closedCFs (pad : Byte) (payload : List Byte) (k n : Nat) : List Frame :=
  (List.range' (k + 1) n).map (closedCF pad payload)

theorem closedCFs_succ (pad : Byte) (payload : List Byte) (k n : Nat) :
    closedCFs pad payload k (n + 1) = closedCF pad payload (k + 1) :: closedCFs pad payload (k + 1) n := rfl

theorem headerByte_eq_ofNat (seq : SeqNo) : headerByte .cf seq = BitVec.ofNat 8 (0x40 + seq.toNat) := rfl

/-- The CF after the first `k` is cut from index `3k + 1` on. -/
theorem closedCF_succ (pad : Byte) (payload : List Byte) (k : Nat) :
    closedCF pad payload (k + 1) = cfOf (payloadOrPad pad payload) (BitVec.ofNat 6 (k + 1)) (3 * k + 1) := by
  have hhead : BitVec.ofNat 8 (0x40 + (k + 1) % 64) = headerByte .cf (BitVec.ofNat 6 (k + 1)) := by
    rw [headerByte_eq_ofNat, BitVec.toNat_ofNat]
  rw [closedCF, hhead, show 3 * (k + 1) - 2 = 3 * k + 1 by omega, show 3 * (k + 1) - 1 = 3 * k + 2 by omega]
  rfl

theorem nextSeq_ofNat (k : Nat) : nextSeq (BitVec.ofNat 6 k) = BitVec.ofNat 6 (k + 1) := by
  rw [nextSeq_eq_add, BitVec.ofNat_add]

theorem hiByte_eq_ofNat (w : BitVec 16) : hiByte w = BitVec.ofNat 8 (w.toNat / 256) := by
  rw [← hiByte_toNat, BitVec.ofNat_toNat, BitVec.setWidth_eq]

theorem loByte_eq_ofNat (w : BitVec 16) : loByte w = BitVec.ofNat 8 (w.toNat % 256) := by
  rw [← loByte_toNat, BitVec.ofNat_toNat, BitVec.setWidth_eq]

/-- The first frame is an SF or an FF by the length alone (R100). -/
theorem firstFrame_eq_headerFrame (pad : Byte) (id : MsgId) (len : Length) (payload : List Byte) :
    firstFrame pad id len payload =
      headerFrame (if len.toNat ≤ 1 then .sf else .ff) id len (payloadOrPad pad payload 0) := by
  rw [firstFrame, headerFrame, hiByte_eq_ofNat, loByte_eq_ofNat, headerByte]
  by_cases h : len.toNat ≤ 1
  · rw [if_pos h, if_pos h]; rfl
  · rw [if_neg h, if_neg h]; rfl

/-- Short messages and long ones alike: the first frame, and then as many CFs as R77 counts. -/
theorem closedFrames_eq_cons {len : Length} {payload : List Byte} (hp : payload.length = len.toNat) (pad : Byte)
    (id : MsgId) :
    closedFrames pad id payload = firstFrame pad id len payload :: closedCFs pad payload 0 (cfTotal len.toNat) := by
  rw [closedFrames, firstFrame, hp, closedCFs]
  by_cases h : len.toNat ≤ 1
  · rw [if_pos h, if_pos h, cfTotal, if_pos h, Nat.div_eq_of_lt (by omega), Nat.mod_eq_of_lt (by omega)]
    rfl
  · rw [if_neg h, if_neg h, Nat.zero_add, Nat.zero_add, List.range'_eq_map_range, List.map_map]
    simp only [Function.comp_def, Nat.add_comm 1]

theorem getElem?_eq_payloadOrPad {payload : List Byte} {j : Nat} (hj : j < payload.length) (pad : Byte) :
    payload[j]? = some (payloadOrPad pad payload j) := by
  rw [payloadOrPad, List.getElem?_eq_getElem hj]
  rfl

/-! ### The sender: the first frame (R100 to R102, R121) -/

theorem encodeSF_of_lt {s : State} (hl : s.tx.len.toNat < s.params.maxSize) :
    encodeSF s = .ok (.frame (headerFrame .sf s.tx.id s.tx.len (sentByte s 0)) (s.setTx { s.tx with cursor := s.tx.len })) := by
  unfold encodeSF sentByte
  by_cases h : 1 ≤ s.tx.len.toNat
  · rw [if_pos h, bufRead_of_lt (by omega), if_pos (by omega)]
  · rw [if_neg h, if_neg (by omega)]

theorem encodeFF_of_lt {s : State} (h : 1 ≤ s.tx.len.toNat) (hl : s.tx.len.toNat < s.params.maxSize) :
    encodeFF s =
      .ok (.frame (headerFrame .ff s.tx.id s.tx.len (sentByte s 0)) (s.setTx { s.tx with cursor := 1#16, cstate := .cts })) := by
  unfold encodeFF sentByte
  rw [bufRead_of_lt (by omega), if_pos (by omega)]

/-- The sender's codec after the first frame: an SF is the whole message, an FF its first byte. -/
def txFramed (s : State) : State :=
  s.setTx { s.tx with
    cursor := if s.tx.len.toNat ≤ 1 then s.tx.len else 1#16
    cstate := if s.tx.len.toNat ≤ 1 then s.tx.cstate else .cts }

theorem encodeNext_of_init {s : State} (hb : s.tx.state = .busy) (hc : s.tx.cstate = .init)
    (hl : s.tx.len.toNat < s.params.maxSize) :
    encodeNext s =
      .ok (.frame (headerFrame (if s.tx.len.toNat ≤ 1 then .sf else .ff) s.tx.id s.tx.len (sentByte s 0)) (txFramed s)) := by
  rw [encodeNext, if_neg (by simp [hb]), if_neg (by simp [hc]), oversize_eq_false.2 hl, txFramed]
  by_cases h : s.tx.len.toNat ≤ 1
  · simp only [if_pos h, encodeSF_of_lt hl]
    rfl
  · simp only [if_neg h, encodeFF_of_lt (by omega : 1 ≤ s.tx.len.toNat) hl]
    rfl

/-- `TXB` with the payload loaded, and a pad byte beyond it. -/
theorem sentByte_txLoaded {len : Length} {payload : List Byte} (hp : payload.length = len.toNat) (id : MsgId) (node : Node)
    (s : State) (j : Nat) : sentByte (txLoaded id len payload node s) j = payloadOrPad s.params.pad payload j := by
  have hbuf : (txLoaded id len payload node s).bufOf .txb = memWriteAll (s.bufOf .txb) 0 payload := rfl
  by_cases hj : j < len.toNat
  · have hread := byteAt_of_written hbuf (j := j) (by omega)
    rw [getElem?_eq_payloadOrPad (by omega) s.params.pad, Nat.zero_add] at hread
    exact (if_pos hj).trans (Option.some.inj hread).symm
  · rw [payloadOrPad, List.getElem?_eq_none (by omega)]
    exact if_neg hj

theorem exec_txSend_of_lt {s : State} {len : Length} {payload : List Byte} (hi : s.tx.state = .idle)
    (hc : s.tx.cstate = .init) (hl : len.toNat < s.params.maxSize) (hp : payload.length = len.toNat) (id : MsgId)
    (node : Node) (now : Time) (wrOk : Bool) :
    exec (.txSend id len payload node now wrOk) s =
      .next (txSendFrame (firstFrame s.params.pad id len payload) now wrOk (txFramed (txLoaded id len payload node s))) := by
  have hfits : payloadFits len payload = true := by simp [payloadFits, hp]
  have hcopy : bufWriteAll .txb 0 payload (txLoadHeader id len node s) =
      .ok ((txLoadHeader id len node s).setBuf .txb (memWriteAll s.tx.buf 0 payload)) :=
    bufWriteAll_of_le (Or.inl (by change 0 + payload.length ≤ s.params.maxSize; omega))
  have henc : encodeNext (txSetBusy ((txLoadHeader id len node s).setBuf .txb (memWriteAll s.tx.buf 0 payload))) =
      .ok (.frame (firstFrame s.params.pad id len payload) (txFramed (txLoaded id len payload node s))) := by
    rw [firstFrame_eq_headerFrame, ← sentByte_txLoaded hp id node s 0]
    exact encodeNext_of_init (s := txLoaded id len payload node s) rfl hc hl
  change execTxSend id len payload node now wrOk s = _
  rw [execTxSend, if_neg (by simp [hi]), oversize_eq_false.2 hl, if_neg Bool.false_ne_true, if_pos hfits, txBegin, hcopy]
  simp only [henc]
  rfl

/-! ### The sender: the CFs (R103, R123) -/

/-- The sender with the first frame and `k` CFs of a message written. -/
structure SentCFs (pad : Byte) (payload : List Byte) (k : Nat) (s : State) : Prop where
  busy : s.tx.state = .busy
  fits : s.tx.len.toNat < s.params.maxSize
  len : s.tx.len.toNat = payload.length
  cursor : s.tx.cursor.toNat = min (3 * k + 1) payload.length
  cstate : s.tx.cstate = if 3 * k + 1 < payload.length then .cts else .init
  seq : s.tx.seq = BitVec.ofNat 6 (k + 1)
  bytes : ∀ j, sentByte s j = payloadOrPad pad payload j

theorem sentCFs_zero {s : State} {len : Length} {payload : List Byte} (hrest : TxAtRest s.tx)
    (hl : len.toNat < s.params.maxSize) (hp : payload.length = len.toNat) (f : Frame) (id : MsgId) (node : Node) (now : Time) :
    SentCFs s.params.pad payload 0 (txSendFrame f now true (txFramed (txLoaded id len payload node s))) := by
  obtain ⟨_, hcstate, _, hseq, _⟩ := hrest
  refine ⟨rfl, hl, hp.symm, ?_, ?_, hseq, sentByte_txLoaded hp id node s⟩
  · change (if len.toNat ≤ 1 then len else 1#16).toNat = _
    split
    · omega
    · change 1 = _
      omega
  · change (if len.toNat ≤ 1 then s.tx.cstate else .cts) = _
    rw [hp, hcstate]
    by_cases h : len.toNat ≤ 1
    · rw [if_pos h, if_neg (by omega)]
    · rw [if_neg h, if_pos (by omega)]

/-- The CF that the sender writes next is the one of the closed form. -/
theorem SentCFs.nextCF_eq {pad : Byte} {payload : List Byte} {k : Nat} {s : State} (h : SentCFs pad payload k s)
    (hmore : 3 * k + 1 < payload.length) : nextCF s = closedCF pad payload (k + 1) := by
  have hcursor : s.tx.cursor.toNat = 3 * k + 1 := by have := h.cursor; omega
  rw [nextCF_eq_cfOf, closedCF_succ, h.seq, hcursor, funext h.bytes]

/-- One more CF. -/
theorem SentCFs.txAcked {pad : Byte} {payload : List Byte} {k : Nat} {s : State} (h : SentCFs pad payload k s)
    (hmore : 3 * k + 1 < payload.length) (now : Time) : SentCFs pad payload (k + 1) (txAcked now s) := by
  have hcursor := h.cursor
  have hlen := h.len
  refine ⟨h.busy, h.fits, h.len, ?_, ?_, ?_, h.bytes⟩
  · change (txCursorAfter s.tx.len s.tx.cursor).toNat = _
    rw [txCursorAfter_toNat]
    omega
  · change (txAfterCF s.tx).cstate = _
    rw [txAfterCF_cstate, h.cstate, if_pos hmore, hlen,
      show s.tx.cursor.toNat + 3 = 3 * (k + 1) + 1 by omega]
  · change nextSeq s.tx.seq = _
    rw [h.seq, nextSeq_ofNat]

/-- The outputs of the acknowledged `TICK`s that write the given frames and then report the message as sent. -/
def tickOutputs (node : Node) (fs : List Frame) : List Result :=
  fs.flatMap (fun f => [{}, frameOutputs node f]) ++ [{}, doneOutputs node]

/-- One acknowledged `TICK` for every CF to come, and one more. -/
theorem SentCFs.issue_ackTicks {pad : Byte} {payload : List Byte} {k n : Nat} {s : State} {times : List Time}
    (h : SentCFs pad payload k s) (htotal : cfTotal payload.length = k + n) (htimes : times.length = n + 1) :
    ∃ t, issue (times.flatMap fun now => ackTick now true) s =
        some (tickOutputs s.tx.node (closedCFs pad payload k n), t) ∧ TxAtRest t.tx ∧ t.rx = s.rx := by
  induction n generalizing k s times with
  | zero =>
    obtain ⟨now, rfl⟩ := List.length_eq_one_iff.1 htimes
    have hlast : ¬ 3 * k + 1 < payload.length := fun hmore => by have := lt_cfTotal_iff.2 hmore; omega
    have hinit : s.tx.cstate = .init := by rw [h.cstate, if_neg hlast]
    exact ⟨_, issue_ackTick_of_init h.busy hinit now, txAtRest_txResetEngine s.tx, rfl⟩
  | succ n ih =>
    obtain ⟨now, times, rfl⟩ := List.exists_cons_of_length_eq_add_one htimes
    have hmore : 3 * k + 1 < payload.length := lt_cfTotal_iff.1 (by omega)
    have hcts : s.tx.cstate = .cts := by rw [h.cstate, if_pos hmore]
    have hlt : s.tx.cursor.toNat < s.tx.len.toNat := by
      have := h.cursor
      have := h.len
      omega
    have htick := issue_ackTick_of_cts h.busy hcts hlt (Nat.le_of_lt h.fits) now
    obtain ⟨t, hticks, hrest, hrx⟩ := ih (times := times) (h.txAcked hmore now) (by omega) (Nat.succ.inj htimes)
    refine ⟨t, ?_, hrest, hrx⟩
    rw [List.flatMap_cons, issue_append htick hticks, closedCFs_succ, h.nextCF_eq hmore]
    rfl

/-! ### The sender: the outputs -/

theorem framesWritten_tickOutputs (node : Node) (fs : List Frame) : framesWritten (tickOutputs node fs) = fs := by
  induction fs with
  | nil => rfl
  | cons f fs ih => exact congrArg (f :: ·) ih

/-- No operation but the last raises an event. -/
theorem events_tickOutputs (node : Node) (fs : List Frame) :
    (tickOutputs node fs).filterMap (fun r => r.ev) = [⟨.txDone, node, none⟩] := by
  induction fs with
  | nil => rfl
  | cons f fs ih => exact ih

theorem getLast?_tickOutputs (node : Node) (r : Result) (fs : List Frame) :
    (r :: tickOutputs node fs).getLast? = some (doneOutputs node) := by
  simp [tickOutputs, List.getLast?_cons]

/-- Settles O47: the first frame of the closed form, its CFs counted one by one, and the last acknowledgment. -/
theorem sentFramesAreTheClosedForm : Obligations.SentFramesAreTheClosedForm := by
  intro s id len payload node now times hrest hl hp htimes
  have ⟨hidle, hinit, _⟩ := hrest
  have hsend := exec_txSend_of_lt hidle hinit hl hp id node now true
  obtain ⟨t, hticks, htrest, hrx⟩ := (sentCFs_zero hrest hl hp _ id node now).issue_ackTicks (n := cfTotal len.toNat)
    (times := times) (by rw [hp, Nat.zero_add]) (by omega)
  refine ⟨_, t, issue_cons hsend rfl hticks, ?_, events_tickOutputs node _,
    ⟨_, getLast?_tickOutputs node _ _, rfl⟩, htrest, hrx⟩
  rw [closedFrames_eq_cons hp]
  exact congrArg (_ :: ·) (framesWritten_tickOutputs node _)

/-! ### The receiver -/

/-- The operations raise one event, at the last of them, `quiet` others having gone before; the receive engine is then at rest,
the transmit engine as it was, and `RXB` agrees with `f` on the `n` bytes of the message. -/
def Delivers (e : Event) (f : Nat → Byte) (n quiet : Nat) (is : List Instr) (s : State) : Prop :=
  ∃ es t, issue is s = some (es, t) ∧ es.map (fun r => r.ev) = List.replicate quiet none ++ [some e] ∧
    RxAtRest t.rx ∧ t.tx = s.tx ∧ ∀ j, j < n → t.byteAt .rxb j = f j

theorem delivers_singleton {e : Event} {f : Nat → Byte} {n : Nat} {i : Instr} {s t : State}
    (hexec : exec i s = .next t) (hres : t.result = some { ev := some e }) (hrest : RxAtRest t.rx) (htx : t.tx = s.tx)
    (hbytes : ∀ j, j < n → t.byteAt .rxb j = f j) : Delivers e f n 0 [i] s :=
  ⟨_, t, issue_singleton hexec hres, rfl, hrest, htx, hbytes⟩

theorem Delivers.cons {e : Event} {f : Nat → Byte} {n quiet : Nat} {i : Instr} {is : List Instr} {s t : State}
    (h : Delivers e f n quiet is t) (hexec : exec i s = .next t) (hres : t.result = some {}) (htx : t.tx = s.tx) :
    Delivers e f n (quiet + 1) (i :: is) s := by
  obtain ⟨es, u, hissue, hevents, hrest, hutx, hbytes⟩ := h
  exact ⟨_, u, issue_cons hexec hres hissue, congrArg (none :: ·) hevents, hrest, hutx.trans htx, hbytes⟩

/-- The receiver with the FF and `k` CFs of a message of `len` bytes taken, its bytes being those of `f`, and more to come. -/
structure TakenCFs (f : Nat → Byte) (id : MsgId) (len : Length) (k : Nat) (s : State) : Prop where
  cts : s.rx.cstate = .cts
  idHeld : s.rx.id = id
  lenHeld : s.rx.len = len
  fits : len.toNat < s.params.maxSize
  more : 3 * k + 1 < len.toNat
  cursor : s.rx.cursor.toNat = 3 * k + 1
  seq : s.rx.seq = BitVec.ofNat 6 (k + 1)
  bytes : ∀ j, j < 3 * k + 1 → s.byteAt .rxb j = f j

theorem takenCFs_zero {f : Nat → Byte} {len : Length} {s : State} (hlt : 1 < len.toNat) (hl : len.toNat < s.params.maxSize)
    (id : MsgId) : TakenCFs f id len 0 (rxFirst id len (f 0) s) where
  cts := rfl
  idHeld := rfl
  lenHeld := rfl
  fits := hl
  more := hlt
  cursor := rfl
  seq := rfl
  bytes j hj := by
    obtain rfl : j = 0 := by omega
    exact rxFirst_byteAt_zero id len (f 0) s

/-- The next CF: it completes the message, or one more has been taken. -/
theorem TakenCFs.exec_next {f : Nat → Byte} {id : MsgId} {len : Length} {k : Nat} {s : State} (h : TakenCFs f id len k s)
    (src : Node) :
    ∃ t, exec (loopFrame src (cfOf f (BitVec.ofNat 6 (k + 1)) (3 * k + 1))) s = .next t ∧ t.tx = s.tx ∧
      (3 * (k + 1) + 1 < len.toNat → TakenCFs f id len (k + 1) t ∧ t.result = some {}) ∧
      (len.toNat ≤ 3 * (k + 1) + 1 →
        RxAtRest t.rx ∧ t.result = some { ev := some ⟨.rxMsg, src, some ⟨id, len⟩⟩ } ∧
        ∀ j, j < len.toNat → t.byteAt .rxb j = f j) := by
  have hcursor := h.cursor
  have hfits : s.rx.len.toNat < s.params.maxSize := h.lenHeld ▸ h.fits
  obtain ⟨t, hexec, hkept, htx, hbytes, hmore, hlast⟩ :=
    exec_loopFrame_cfOf h.cts hfits (fun j hj => h.bytes j (hcursor ▸ hj)) src
  rw [h.seq, hcursor] at hexec
  rw [h.lenHeld, hcursor] at hbytes hmore hlast
  refine ⟨t, hexec, htx, fun hgo => ?_, fun hle => ?_⟩
  · obtain ⟨hrx, hres⟩ := hmore hgo
    refine ⟨⟨?_, ?_, ?_, hkept.params ▸ h.fits, hgo, ?_, ?_, fun j hj => hbytes j (by omega) (by omega)⟩, hres⟩
    · rw [hrx]; exact h.cts
    · rw [hrx]; exact h.idHeld
    · rw [hrx]; exact h.lenHeld
    · rw [hrx]
      have := len.isLt
      rw [BitVec.toNat_ofNat]
      omega
    · rw [hrx, h.seq, ← nextSeq_eq_add, nextSeq_ofNat]
  · obtain ⟨hrest, hres⟩ := hlast hle
    rw [h.idHeld] at hres
    exact ⟨hrest, hres, fun j hj => hbytes j (by omega) hj⟩

/-- The CFs still to come, `n` of them before the last one. -/
theorem TakenCFs.delivers {pad : Byte} {payload : List Byte} {id : MsgId} {len : Length} {k n : Nat} {s : State}
    (h : TakenCFs (payloadOrPad pad payload) id len k s) (htotal : cfTotal len.toNat = k + (n + 1)) (src : Node) :
    Delivers ⟨.rxMsg, src, some ⟨id, len⟩⟩ (payloadOrPad pad payload) len.toNat n
      ((closedCFs pad payload k (n + 1)).map (loopFrame src)) s := by
  induction n generalizing k s with
  | zero =>
    obtain ⟨t, hexec, htx, _, hlast⟩ := h.exec_next src
    rw [← closedCF_succ] at hexec
    have hle : len.toNat ≤ 3 * (k + 1) + 1 :=
      Nat.le_of_not_lt fun hgo => by have := lt_cfTotal_iff.2 hgo; omega
    obtain ⟨hrest, hres, hbytes⟩ := hlast hle
    exact delivers_singleton hexec hres hrest htx hbytes
  | succ n ih =>
    obtain ⟨t, hexec, htx, hmore, _⟩ := h.exec_next src
    rw [← closedCF_succ] at hexec
    obtain ⟨htaken, hres⟩ := hmore (lt_cfTotal_iff.1 (by omega))
    exact (ih htaken (by omega)).cons hexec hres htx

/-- The frames of the closed form, fed to a receiver in any state: an SF delivers, an FF has CFs after it. -/
theorem delivers_closedFrames {pad : Byte} {payload : List Byte} {len : Length} {s : State}
    (hp : payload.length = len.toNat) (hl : len.toNat < s.params.maxSize) (id : MsgId) (src : Node) :
    Delivers ⟨.rxMsg, src, some ⟨id, len⟩⟩ (payloadOrPad pad payload) len.toNat (cfTotal len.toNat)
      ((closedFrames pad id payload).map (loopFrame src)) s := by
  rw [closedFrames_eq_cons hp, firstFrame_eq_headerFrame, List.map_cons]
  by_cases h : len.toNat ≤ 1
  · have hnone : cfTotal len.toNat = 0 := if_pos h
    rw [if_pos h, hnone]
    obtain ⟨t, hexec, _, htx, hrx, hres, hbyte, _⟩ :=
      (singleFrameDelivers s src id len (payloadOrPad pad payload 0)).2 hl
    refine delivers_singleton (t := t) ?_ hres ?_ htx fun j hj => ?_
    · rw [exec_loopFrame, frameInstr_headerFrame_sf, hexec]
    · rw [hrx]; exact rxAtRest_rxResetEngine s.rx
    · obtain rfl : j = 0 := by omega
      exact hbyte hj
  · obtain ⟨n, hn⟩ := Nat.exists_eq_add_one.2 (lt_cfTotal_iff.2 (by omega : 3 * 0 + 1 < len.toNat))
    have hexec := exec_ff_of_lt hl src id (payloadOrPad pad payload 0)
    have htaken := takenCFs_zero (f := payloadOrPad pad payload) (s := s) (Nat.lt_of_not_le h) hl id
    rw [if_neg h, hn]
    refine (htaken.delivers (by omega) src).cons ?_ rfl rfl
    rw [exec_loopFrame, frameInstr_headerFrame_ff, hexec]

/-- Settles O48: by O47 the sender writes the frames of the closed form, and these deliver, at a receiver at rest as at any
other. -/
theorem roundTrip : Obligations.RoundTrip := by
  intro a b id len payload dest src now times hatx _ hsize hl hp htimes
  obtain ⟨rs, a', hsend, hframes, _⟩ := sentFramesAreTheClosedForm a id len payload dest now times hatx hl hp htimes
  obtain ⟨es, b', hfed, hevents, hrest, htx, hbytes⟩ :=
    delivers_closedFrames (pad := a.params.pad) hp (hsize ▸ hl : len.toNat < b.params.maxSize) id src
  refine ⟨rs, a', es, b', hsend, by rw [hframes, hfed], hevents, hrest, htx, fun j hj => ?_⟩
  rw [hbytes j hj]
  exact getElem?_eq_payloadOrPad (by omega) a.params.pad

end Sys2Proof.Machine
end

section
/-!
PROOFS. The transmit engine, operation by operation: `TX_SEND` (O7), `TX_ACK` (O8), `TICK` (O9), the two reports of the lower
layer (O10, O11), `TX_RESET` (O3); and how a message in flight ends (O12). First the state that answers each operation, one
lemma for each case that the link's proofs did not need. A reset of the engine is `txResetEngine`, whose fields are those of R30.
-/
namespace Sys2Proof.Machine

/-! ### `TX_SEND` (R121) -/

theorem exec_txSend_of_busy {s : State} (hb : s.tx.state = .busy) (id : MsgId) (len : Length) (payload : List Byte)
    (node : Node) (now : Time) (wrOk : Bool) :
    exec (.txSend id len payload node now wrOk) s = .next (s.setResult { status := .failed }) := if_pos hb

theorem exec_txSend_of_le {s : State} {len : Length} (hi : s.tx.state = .idle) (hl : s.params.maxSize ≤ len.toNat)
    (id : MsgId) (payload : List Byte) (node : Node) (now : Time) (wrOk : Bool) :
    exec (.txSend id len payload node now wrOk) s = .next (s.setResult { status := .exceededCapacity }) := by
  change execTxSend id len payload node now wrOk s = _
  rw [execTxSend, if_neg (by simp [hi]), if_pos (oversize_eq_true.2 hl), finish_eq]

/-- The state after a `TX_SEND` within the capacity: the message loaded, its first frame built and handed to the channel. -/
def txSent (id : MsgId) (len : Length) (payload : List Byte) (node : Node) (now : Time) (wrOk : Bool) (s : State) : State :=
  txSendFrame (firstFrame s.params.pad id len payload) now wrOk (txFramed (txLoaded id len payload node s))

section
variable (id : MsgId) (len : Length) (payload : List Byte) (node : Node) (now : Time) (wrOk : Bool) (s : State)

theorem txSent_hostKept : HostKept s (txSent id len payload node now wrOk s) := by
  cases wrOk <;> exact ⟨rfl, rfl, rfl⟩

theorem txSent_rx : (txSent id len payload node now wrOk s).rx = s.rx := txSendFrame_rx ..

theorem txSent_bufOf_txb :
    (txSent id len payload node now wrOk s).bufOf .txb = memWriteAll (s.bufOf .txb) 0 payload := txSendFrame_txBuf ..

end

/-- Settles O7: the busy and the capacity test one by one, then the message loaded and its first frame written, the payload read
back as the run of bytes copied from index 0 on. -/
theorem txSendBeginsMessage : Obligations.TxSendBeginsMessage := by
  intro s id len payload node now wrOk
  refine ⟨rfl, fun hb => exec_txSend_of_busy hb .., fun hi hl => exec_txSend_of_le hi hl .., fun hi hc hl hp => ?_⟩
  have hbuf := txSent_bufOf_txb id len payload node now wrOk s
  refine ⟨txSent id len payload node now wrOk s, exec_txSend_of_lt hi hc hl hp id node now wrOk, txSent_hostKept ..,
    txSent_rx .., fun j hj => ?_, fun j hj => ?_, ?_, ?_⟩
  · have hread := byteAt_of_written hbuf (j := j) (by omega)
    rwa [Nat.zero_add] at hread
  · exact byteAt_of_not_written hbuf (by omega)
  · rintro rfl
    refine ⟨?_, rfl⟩
    rw [← hc]
    rfl
  · rintro rfl
    exact ⟨rfl, rfl⟩

/-! ### `TX_ACK` (R122) -/

theorem exec_txAck_of_idle {s : State} (hi : s.tx.state = .idle) : exec .txAck s = .next (s.setResult {}) := by
  change execTxAck s = _
  unfold execTxAck
  rw [hi]
  rfl

/-- Settles O8: the flag set while `BUSY`, nothing while `IDLE`; neither end moves `tx_state`, so a second `TX_ACK` has the end of
the first. -/
theorem txAckSetsFlagWhileBusy : Obligations.TxAckSetsFlagWhileBusy := by
  refine ⟨rfl, fun s => ⟨exec_txAck_of_busy, exec_txAck_of_idle, fun t h => ?_⟩⟩
  rcases execTxAck_next h with ⟨hb, rfl⟩ | ⟨hi, rfl⟩
  · exact exec_txAck_of_busy (s := ackPending s) hb
  · exact exec_txAck_of_idle (s := s.setResult {}) hi

/-! ### `TICK` (R123) -/

theorem exec_tick_of_idle {s : State} (hi : s.tx.state = .idle) (now : Time) (wrOk : Bool) :
    exec (.tick now wrOk) s = .next (s.setResult {}) := by
  change execTick now wrOk s = _
  unfold execTick
  rw [hi]
  rfl

/-- Without an acknowledgment a `TICK` only looks at the clock. -/
theorem exec_tick_of_no_ack {s : State} (hb : s.tx.state = .busy) (ha : s.tx.ack = false) (now : Time) (wrOk : Bool) :
    exec (.tick now wrOk) s =
      .next (if s.params.txTimeout < elapsed now s.tx.stamp then
        raiseEvent .txb (txEvent .txTimeout s.tx) .success none s else s.setResult {}) := by
  change execTick now wrOk s = _
  rw [execTick, hb, ha, timedOut]
  by_cases h : s.params.txTimeout < elapsed now s.tx.stamp <;> simp [h]

/-- The transmit engine after a CF in the middle of a message (R103). -/
theorem txAfterCF_of_cts {t : TxEngine} (hc : t.cstate = .cts) :
    txAfterCF t = { t with
      seq := t.seq + 1#6
      cursor := BitVec.ofNat 16 (min (t.cursor.toNat + 3) t.len.toNat)
      cstate := if t.cursor.toNat + 3 < t.len.toNat then .cts else .init } :=
  calc txAfterCF t
    _ = { t with seq := nextSeq t.seq, cursor := txCursorAfter t.len t.cursor, cstate := (txAfterCF t).cstate } := rfl
    _ = _ := by rw [txAfterCF_cstate, hc, nextSeq_eq_add]; rfl

/-- Settles O9: each case is one end of `TICK`; the CF's fields are those of `EncodeCF`, and the elapsed time is the spec's
difference modulo `2^32`. -/
theorem tickAdvancesOrTimesOut : Obligations.TickAdvancesOrTimesOut := by
  intro s now wrOk
  refine ⟨rfl, fun hi => exec_tick_of_idle hi now wrOk, fun hb ha hc => exec_tick_of_init hb ha hc now wrOk,
    fun hb ha hc hlt hl hw => ?_, fun hb ha hc hlt hl hw => ?_, fun hb ha ho => ?_, fun hb ha ho => ?_⟩
  · subst hw
    rw [exec_tick_of_cts hb ha hc hlt (Nat.le_of_lt hl), txAfterCF_of_cts (t := (ackTaken s).tx) hc]
    rfl
  · subst hw
    exact exec_tick_of_cts hb ha hc hlt (Nat.le_of_lt hl) now false
  · rw [exec_tick_of_no_ack hb ha, elapsed_eq, if_pos ho]
    rfl
  · rw [exec_tick_of_no_ack hb ha, elapsed_eq, if_neg (Nat.not_lt.2 ho)]
    rfl

/-! ### The reports of the lower layer (R124, R125) -/

theorem txReport_of_busy {s : State} (hb : s.tx.state = .busy) (kind : EventKind) :
    txReport kind s = raiseEvent .txb (txEvent kind s.tx) .success none s := by rw [txReport, hb]

theorem txReport_of_idle {s : State} (hi : s.tx.state = .idle) (kind : EventKind) :
    txReport kind s = s.setResult {} := by rw [txReport, hi]

/-- Settles O10: the report that raises `TX_TIMEOUT`. -/
theorem txTimeoutEvtEndsSend : Obligations.TxTimeoutEvtEndsSend :=
  ⟨rfl, fun _ => ⟨fun hb => congrArg Host.Outcome.next (txReport_of_busy hb .txTimeout),
    fun hi => congrArg Host.Outcome.next (txReport_of_idle hi .txTimeout)⟩⟩

/-- Settles O11: the report that raises `FAILURE`. -/
theorem txIoErrorEndsSend : Obligations.TxIoErrorEndsSend :=
  ⟨rfl, fun _ => ⟨fun hb => congrArg Host.Outcome.next (txReport_of_busy hb .failure),
    fun hi => congrArg Host.Outcome.next (txReport_of_idle hi .failure)⟩⟩

/-! ### `TX_RESET` (R126) -/

theorem exec_txReset (s : State) : exec .txReset s = .next ((resetTx s).setResult {}) := rfl

@[simp] theorem txResetEngine_txResetEngine (t : TxEngine) : txResetEngine (txResetEngine t) = txResetEngine t := rfl

/-- Settles O3: `TxReset()` gives the fields it changes fixed values, so the second one finds them there. -/
theorem txResetResetsTxEngine : Obligations.TxResetResetsTxEngine := by
  refine ⟨rfl, fun s => ⟨exec_txReset s, fun t h => ?_⟩⟩
  rw [exec_txReset] at h
  cases h
  rw [exec_txReset, resetTx, State.setResult_tx, resetTx_tx, txResetEngine_txResetEngine]
  rfl

/-! ### How a message in flight ends (R127, R129, R130) -/

/-- What ends a message in flight: a reset, or an event of the transmit engine. -/
def SendEnder (i : Instr) (t : State) : Prop :=
  i = .txReset ∨ i = .reset ∨
    ∃ r e, t.result = some r ∧ r.ev = some e ∧ (e.kind = .txDone ∨ e.kind = .txTimeout ∨ e.kind = .failure)

theorem sendEnder_of_event {i : Instr} {t : State} {r : Result} {e : Event} (hres : t.result = some r)
    (hev : r.ev = some e) (hkind : e.kind = .txDone ∨ e.kind = .txTimeout ∨ e.kind = .failure) : SendEnder i t :=
  Or.inr (Or.inr ⟨r, e, hres, hev, hkind⟩)

/-- A message in flight goes on, or it ends through `TxReset()`. -/
theorem Executed.busy_or_reset {i : Instr} {s t : State} (he : Executed i s t) (hb : s.tx.state = .busy) :
    t.tx.state = .busy ∨ t.tx = txResetEngine s.tx ∧ SendEnder i t := by
  cases he with
  | inbound _ node _ _ _ hr => exact Or.inl (by rw [hr.tx_eq, hb])
  | sendFrame _ _ _ _ _ _ _ _ _ _ _ hi => exact TxState.noConfusion (hi.symm.trans hb)
  | txReset => exact Or.inr ⟨rfl, Or.inl rfl⟩
  | reset => exact Or.inr ⟨rfl, Or.inr (Or.inl rfl)⟩
  | tickDone => exact Or.inr ⟨rfl, sendEnder_of_event rfl rfl (Or.inl rfl)⟩
  | tickTimeout | timeoutBusy => exact Or.inr ⟨rfl, sendEnder_of_event rfl rfl (Or.inr (Or.inl rfl))⟩
  | errorBusy => exact Or.inr ⟨rfl, sendEnder_of_event rfl rfl (Or.inr (Or.inr rfl))⟩
  | tickFrame now wrOk =>
    cases wrOk with
    | true => exact Or.inl hb
    | false => exact Or.inr ⟨rfl, sendEnder_of_event rfl rfl (Or.inr (Or.inr rfl))⟩
  | _ => exact Or.inl hb

/-- Settles O12: at an end of `Executed` that leaves the engine `IDLE` the message has not gone on, so it has ended. -/
theorem busyEndsOnlyThroughTxReset : Obligations.BusyEndsOnlyThroughTxReset := by
  intro i s t hb h hi
  rcases (executed_of_exec h).busy_or_reset hb with hbusy | hended
  · exact TxState.noConfusion (hi.symm.trans hbusy)
  · exact hended

end Sys2Proof.Machine
end

section
/-!
PROOFS. The receive engine's operations: `RX_FRAME` on the four bytes of any frame (O19) and from any sender (O21), `RX_RESET`
(O4), `RX_READ` (O20); and that nothing but a frame or a reset moves the engine (O23). What another sender changes is one function
on states, `renameSender`, with which `Decode` commutes function by function.
-/
namespace Sys2Proof.Machine

/-! ### `RX_FRAME` (R140) -/

/-- In a state with R33 (b) a CF always answers: it is invalid, out of sequence, or has room for its payload. -/
theorem exec_cf_answers {s : State} (hroom : s.rx.cstate = .cts → s.rx.len.toNat < s.params.maxSize) (node : Node)
    (seq : SeqNo) (a b c : Byte) : ∃ t, exec (.cf node seq a b c) s = .next t := by
  cases hc : s.rx.cstate with
  | init => exact ⟨_, exec_cf_of_init hc node seq a b c⟩
  | cts =>
    by_cases hseq : seq = s.rx.seq
    · exact ⟨_, exec_cf_of_eq hc hseq (Nat.le_of_lt (hroom hc)) node a b c⟩
    · exact ⟨_, exec_cf_of_ne hc hseq node a b c⟩

/-- In a state with R33 (b) every frame is answered, whatever its four bytes. -/
theorem exec_frameInstr_answers {s : State} (hroom : s.rx.cstate = .cts → s.rx.len.toNat < s.params.maxSize)
    (node : Node) (f : Frame) : ∃ t, exec (frameInstr node f) s = .next t := by
  unfold frameInstr
  cases ftypeOf f.f0 with
  | ff =>
    obtain ⟨t, ht⟩ := decodeFF_answers node (low6Of f.f0) (word16 f.f1 f.f2) f.f3 s
    exact ⟨t, outcomeOf_eq_next.2 ht⟩
  | cf => exact exec_cf_answers hroom node (low6Of f.f0) f.f1 f.f2 f.f3
  | sf =>
    obtain ⟨t, ht⟩ := decodeSF_answers node (low6Of f.f0) (word16 f.f1 f.f2) f.f3 s
    exact ⟨t, outcomeOf_eq_next.2 ht⟩
  | unassigned => exact ⟨_, rfl⟩

/-- The four receive kinds by name. -/
theorem isRxKind_eq_true {k : EventKind} :
    isRxKind k = true ↔ k = .rxMsg ∨ k = .rxSnError ∨ k = .rxExceededCapacity ∨ k = .rxInvalidFrame := by
  cases k <;> decide

/-- Settles O19: the frame is answered, its outputs are those of `Received`, and the transmit engine is neither changed nor read
by an operation of the receive engine. -/
theorem rxFrameIsDecode : Obligations.RxFrameIsDecode := by
  intro s node b0 b1 b2 b3
  have hframe := execRxFrame_eq node b0 b1 b2 b3 s
  refine ⟨rfl, hframe, fun hroom => ?_⟩
  obtain ⟨t, ht⟩ := exec_frameInstr_answers hroom node ⟨b0, b1, b2, b3⟩
  have hexec : exec (.rxFrame node b0 b1 b2 b3) s = .next t := hframe.trans ht
  have hrec : Received node s t := received_of_rxFrame hexec
  obtain ⟨ev, hres, hev⟩ := hrec.result_eq
  refine ⟨t, ev, hexec, hrec.hostKept, hrec.tx_eq, hres, exec_setTx_next rfl hexec, fun e he => ?_⟩
  obtain ⟨hkind, hnode⟩ := hev e he
  exact ⟨hnode, isRxKind_eq_true.1 hkind⟩

/-! ### The sender of a frame (R145) -/

/-- The outputs with another node in the event, if there is one. -/
def Result.renameSender (node : Node) (r : Result) : Result :=
  { r with ev := r.ev.map fun e => { e with node := node } }

/-- The state with another node in the event among the outputs, if there is one. -/
def State.renameSender (node : Node) (s : State) : State :=
  { s with result := s.result.map (Result.renameSender node) }

theorem Result.renameSender_of_some {r : Result} {e : Event} (h : r.ev = some e) (node : Node) :
    r.renameSender node = { r with ev := some { e with node := node } } := by rw [Result.renameSender, h]; rfl

theorem Result.renameSender_of_none {r : Result} (h : r.ev = none) (node : Node) : r.renameSender node = r := by
  rw [Result.renameSender, h, Option.map_none, ← h]

theorem State.renameSender_result_of_some {s : State} {r : Result} (h : s.result = some r) (node : Node) :
    (s.renameSender node).result = some (r.renameSender node) := congrArg (Option.map (Result.renameSender node)) h

section
variable (n n' : Node)

theorem rxFinishCF_sender (s : State) : rxFinishCF n' s = (rxFinishCF n s).renameSender n' := by
  unfold rxFinishCF
  split <;> rfl

theorem decodeSF_sender (id : MsgId) (len : Length) (p0 : Byte) (s : State) :
    decodeSF n' id len p0 s = (decodeSF n id len p0 s).map (State.renameSender n') := by
  unfold decodeSF
  split
  · rfl
  · cases (if 1 ≤ len.toNat then bufWrite .rxb 0 p0 (rxTakeHeader id len s) else .ok (rxTakeHeader id len s)) <;> rfl

theorem decodeFF_sender (id : MsgId) (len : Length) (p0 : Byte) (s : State) :
    decodeFF n' id len p0 s = (decodeFF n id len p0 s).map (State.renameSender n') := by
  unfold decodeFF
  split
  · rfl
  · cases bufWrite .rxb 0 p0 (rxTakeHeader id len s) <;> rfl

theorem receiveCF_sender (seq : SeqNo) (a b c : Byte) (s : State) :
    receiveCF n' seq a b c s = (receiveCF n seq a b c s).map (State.renameSender n') := by
  unfold receiveCF decodeCF
  cases s.rx.cstate with
  | init => rfl
  | cts =>
    by_cases hseq : seq = s.rx.seq
    · simp only [hseq, ne_eq, not_true_eq_false, if_false]
      cases bufWriteAll .rxb s.rx.cursor.toNat (cfPayload (cfCount s.rx.len s.rx.cursor) a b c) s with
      | error f => rfl
      | ok s' => exact congrArg Except.ok (rxFinishCF_sender n n' _)
    · simp only [ne_eq, hseq, not_false_eq_true, if_true]
      rfl

/-- `Decode` does with a sender's node nothing but name it in the event. -/
theorem decodeInbound_sender (f : Frame) (s : State) :
    decodeInbound n' f s = (decodeInbound n f s).map (State.renameSender n') := by
  unfold decodeInbound
  cases ftypeOf f.f0 with
  | sf => exact decodeSF_sender n n' _ _ _ s
  | ff => exact decodeFF_sender n n' _ _ _ s
  | cf => exact receiveCF_sender n n' _ _ _ _ s
  | unassigned => rfl

theorem exec_rxFrame_sender {b0 b1 b2 b3 : Byte} {s t : State} (h : exec (.rxFrame n b0 b1 b2 b3) s = .next t) :
    exec (.rxFrame n' b0 b1 b2 b3) s = .next (t.renameSender n') :=
  calc exec (.rxFrame n' b0 b1 b2 b3) s
    _ = outcomeOf ((decodeInbound n ⟨b0, b1, b2, b3⟩ s).map (State.renameSender n')) :=
        congrArg outcomeOf (decodeInbound_sender n n' _ s)
    _ = mapNext (State.renameSender n') (exec (.rxFrame n b0 b1 b2 b3) s) := outcomeOf_map _ _
    _ = .next (t.renameSender n') := congrArg (mapNext _) h

end

/-- Settles O21: the answer to the other node is the same state with the event renamed. -/
theorem senderOnlyNamesTheEvent : Obligations.SenderOnlyNamesTheEvent := by
  intro s t n n' b0 b1 b2 b3 h
  refine ⟨t.renameSender n', exec_rxFrame_sender n n' h, rfl, rfl, fun r e hr he => ⟨?_, ?_⟩, fun r hr hnone => ?_⟩
  · obtain ⟨ev, hres, hev⟩ := (received_of_rxFrame h).result_eq
    cases hres.symm.trans hr
    exact (hev e he).2
  · rw [State.renameSender_result_of_some hr, Result.renameSender_of_some he]
  · rw [State.renameSender_result_of_some hr, Result.renameSender_of_none hnone]

/-! ### What moves the receive engine (R143, R146) -/

/-- The receive engine moves by an inbound frame, `RX_RESET` or `RESET`, and stays as it is at every other end. -/
theorem Executed.rx_eq_or {i : Instr} {s t : State} (he : Executed i s t) :
    isInbound i = true ∨ i = .rxReset ∨ i = .reset ∨ t.rx = s.rx := by
  cases he with
  | inbound _ node _ _ hnode _ => exact Or.inl (isInbound_of_inboundNode hnode)
  | rxReset => exact Or.inr (Or.inl rfl)
  | reset => exact Or.inr (Or.inr (Or.inl rfl))
  | sendFrame => exact Or.inr (Or.inr (Or.inr (txSendFrame_rx ..)))
  | tickFrame => exact Or.inr (Or.inr (Or.inr (txTickFrame_rx ..)))
  | _ => exact Or.inr (Or.inr (Or.inr rfl))

/-- Settles O23: the three that can move the engine are excluded. -/
theorem onlyFramesAndResetsMoveRx : Obligations.OnlyFramesAndResetsMoveRx := by
  intro i s t hin hrxReset hreset h
  rcases (executed_of_exec h).rx_eq_or with hframe | hrx | hboth | heq
  · exact Bool.noConfusion (hin.symm.trans hframe)
  · exact absurd hrx hrxReset
  · exact absurd hboth hreset
  · exact heq

/-! ### `RX_RESET` (R141) -/

theorem exec_rxReset (s : State) : exec .rxReset s = .next ((resetRx s).setResult {}) := rfl

@[simp] theorem rxResetEngine_rxResetEngine (r : RxEngine) : rxResetEngine (rxResetEngine r) = rxResetEngine r := rfl

/-- Settles O4: `RxReset()` gives the fields it changes fixed values, so the second one finds them there. -/
theorem rxResetResetsRxEngine : Obligations.RxResetResetsRxEngine := by
  refine ⟨rfl, fun s => ⟨exec_rxReset s, fun t h => ?_⟩⟩
  rw [exec_rxReset] at h
  cases h
  rw [exec_rxReset, resetRx, State.setResult_rx, resetRx_rx, rxResetEngine_rxResetEngine]
  rfl

/-! ### `RX_READ` (R142) -/

theorem exec_rxRead_of_le {i : Index} {s : State} (h : s.params.maxSize ≤ i.toNat) :
    exec (.rxRead i) s = .next (rxReadFailed s) := if_pos h

theorem exec_rxRead_of_lt {i : Index} {s : State} (h : i.toNat < s.params.maxSize) :
    exec (.rxRead i) s = .next (s.setResult { data := some (s.byteAt .rxb i.toNat) }) := by
  change execRxRead i s = _
  rw [execRxRead, if_neg (Nat.not_le.2 h), bufRead_of_lt h]
  rfl

/-- Settles O20: an index inside the buffer, and one outside. -/
theorem rxReadReadsReceiveBuffer : Obligations.RxReadReadsReceiveBuffer :=
  fun _ _ => ⟨rfl, exec_rxRead_of_lt, fun hle => ⟨_, _, exec_rxRead_of_le hle, rfl, rfl, rfl, rfl, rfl⟩⟩

end Sys2Proof.Machine
end

section
/-!
PROOFS. The system operations: `RESET` (O2), `STATUS` (O5) and the reserved operation codes (O6). `RESET` is the composition of the
two reset functions, so its laws are theirs: each is idempotent, they commute, and neither reads the outputs.
-/
namespace Sys2Proof.Machine

/-! ### `RESET` (R160) -/

theorem exec_reset (s : State) : exec .reset s = .next ((resetRx (resetTx s)).setResult {}) := rfl

@[simp] theorem State.setResult_setResult (s : State) (r r' : Result) : (s.setResult r).setResult r' = s.setResult r' := rfl

@[simp] theorem resetTx_setResult (s : State) (r : Result) : resetTx (s.setResult r) = (resetTx s).setResult r := rfl

@[simp] theorem resetRx_setResult (s : State) (r : Result) : resetRx (s.setResult r) = (resetRx s).setResult r := rfl

@[simp] theorem resetTx_resetTx (s : State) : resetTx (resetTx s) = resetTx s := rfl

@[simp] theorem resetRx_resetRx (s : State) : resetRx (resetRx s) = resetRx s := rfl

/-- The two reset functions write different engines. -/
theorem resetTx_resetRx (s : State) : resetTx (resetRx s) = resetRx (resetTx s) := rfl

/-- Settles O2: after `RESET`, `TxReset()` finds its fields at their reset values and commutes past `RxReset()`, which does too; the
two single resets give the same composition, in one order as it stands and in the other by commuting. -/
theorem resetResetsBothEngines : Obligations.ResetResetsBothEngines := by
  refine ⟨rfl, fun s => ⟨exec_reset s, fun t h => ?_, fun a b ha hb => ?_, fun a b ha hb => ?_⟩⟩
  · rw [exec_reset] at h
    cases h
    simp [exec_reset, resetTx_resetRx]
  · rw [exec_txReset] at ha
    cases ha
    simpa [exec_rxReset, exec_reset] using hb
  · rw [exec_rxReset] at ha
    cases ha
    simpa [exec_txReset, exec_reset, resetTx_resetRx] using hb

/-! ### `STATUS` (R161) -/

theorem exec_status (s : State) :
    exec .status s = .next (s.setResult { busy := some ⟨txBusyBit s.tx, rxBusyBit s.rx⟩ }) := rfl

/-- A `TX_SEND` from `IDLE` fails on the capacity or on the write, never because the engine is busy (R121). -/
theorem exec_txSend_status_ne_failed {s t : State} {r : Result} (hi : s.tx.state = .idle) {id : MsgId} {len : Length}
    {payload : List Byte} {node : Node} {now : Time} {wrOk : Bool}
    (h : exec (.txSend id len payload node now wrOk) s = .next t) (hr : t.result = some r) : r.status ≠ .failed := by
  rcases execTxSend_next h with ⟨hb, _⟩ | ⟨_, _, rfl⟩ | ⟨_, _, _, f, s2, _, rfl⟩
  · exact TxState.noConfusion (hi.symm.trans hb)
  · cases hr
    exact Status.noConfusion
  · cases (txSendFrame_result f now wrOk s2).symm.trans hr
    cases wrOk <;> exact Status.noConfusion

/-- Where R33 holds, `rx_busy` says whether a segmented message is being reassembled (R144). -/
theorem RxInv.rxBusy_iff_cts {p : Config.Params} {r : RxEngine} (h : RxInv p r) : r.busy = .rxBusy ↔ r.cstate = .cts := by
  refine ⟨fun hbusy => ?_, fun hc => (h.cts hc).1⟩
  cases hc : r.cstate with
  | cts => rfl
  | init =>
    obtain ⟨_, _, hidle⟩ := h.init hc
    exact RxFlag.noConfusion (hidle.symm.trans hbusy)

/-- Settles O5: the flags as read, what `tx_busy` says of a `TX_SEND` in either state, and what `rx_busy` says under R33. -/
theorem statusReadsBusyFlags : Obligations.StatusReadsBusyFlags :=
  ⟨rfl, fun s => ⟨exec_status s, exec_txSend_of_busy, fun hi _ _ _ _ _ _ _ _ => exec_txSend_status_ne_failed hi,
    RxInv.rxBusy_iff_cts⟩⟩

/-! ### The reserved operation codes (R162) -/

theorem exec_of_reserved {i : Instr} (h : i ∈ [Instr.reservedB, .reservedC, .reservedD, .reservedE, .reservedF])
    (s : State) : exec i s = .next (s.setResult { status := .failed }) := by
  simp only [List.mem_cons, List.not_mem_nil, or_false] at h
  rcases h with rfl | rfl | rfl | rfl | rfl <;> rfl

/-- Settles O6: the five codes by their encodings, and their one answer. -/
theorem reservedCodesOnlyFail : Obligations.ReservedCodesOnlyFail := ⟨rfl, fun s _ h => exec_of_reserved h s⟩

end Sys2Proof.Machine
end

section
/-!
PROOFS. Events: the engines after one (O26) and its fields (O27). What raising an event does is said once, in `Raised`, and both
statements read it there.
-/
namespace Sys2Proof.Machine

/-! ### The engines and the fields of an event (R174, R177) -/

/-- `Raised i s t e`: instruction `i` raised `e` on its way from `s` to `t`, as a message, an error of the receive engine or an event
of the transmit engine. -/
inductive Raised (i : Instr) (s t : State) : Event → Prop where
  /-- `RX_MSG` (R106, R108). -/
  | message (node : Node) : inboundNode i = some node → RxAtRest t.rx → t.tx = s.tx →
      Raised i s t ⟨.rxMsg, node, some ⟨t.rx.id, t.rx.len⟩⟩
  /-- A frame that is discarded or too large (R106, R107, R109, R110). -/
  | rxError (kind : EventKind) (node : Node) :
      (kind = .rxSnError ∨ kind = .rxExceededCapacity ∨ kind = .rxInvalidFrame) →
      inboundNode i = some node → RxAtRest t.rx → t.tx = s.tx → Raised i s t ⟨kind, node, none⟩
  /-- The end of a message in flight (R123 to R125). -/
  | sendEnd (kind : EventKind) : (kind = .txDone ∨ kind = .txTimeout ∨ kind = .failure) →
      TxAtRest t.tx → t.rx = s.rx → Raised i s t (txEvent kind s.tx)

/-- An event of an inbound frame, at the four ends of `Decode` that have one. -/
theorem Received.raised {i : Instr} {node : Node} {s t : State} {r : Result} {e : Event} (hr : Received node s t)
    (hnode : inboundNode i = some node) (hres : t.result = some r) (hev : r.ev = some e) : Raised i s t e := by
  have htx := hr.tx_eq
  cases hr with
  | refused id len _ ht =>
    subst ht; cases hres; cases hev
    exact .rxError _ node (Or.inr (Or.inl rfl)) hnode (rxAtRest_rxResetEngine _) htx
  | single id len m _ _ ht =>
    subst ht; cases hres; cases hev
    exact .message node hnode (rxAtRest_rxResetEngine _) htx
  | first id len p0 _ ht => subst ht; cases hres; cases hev
  | consecutive a b c _ _ ht =>
    subst ht
    rcases rxFinishCF_cases node (rxStored a b c s) with ⟨_, hf⟩ | ⟨_, hf⟩ <;> rw [hf] at hres htx ⊢
    · cases hres; cases hev
      exact .message node hnode (rxAtRest_rxResetEngine _) htx
    · cases hres; cases hev
  | discarded kind hk ht =>
    subst ht; cases hres; cases hev
    exact .rxError kind node (hk.imp_right Or.inr) hnode (rxAtRest_rxResetEngine _) htx

/-- Every event of an operation is raised in one of the ways of `Raised`: where the transmit engine raises one, what the operation
did to the engine before is undone by the reset. -/
theorem Executed.raised {i : Instr} {s t : State} {r : Result} {e : Event} (he : Executed i s t)
    (hres : t.result = some r) (hev : r.ev = some e) : Raised i s t e := by
  cases he with
  | inbound _ node _ _ hnode hr => exact hr.raised hnode hres hev
  | tickDone => cases hres; cases hev; exact .sendEnd _ (Or.inl rfl) (txAtRest_txResetEngine _) rfl
  | tickTimeout | timeoutBusy =>
    cases hres; cases hev
    exact .sendEnd _ (Or.inr (Or.inl rfl)) (txAtRest_txResetEngine _) rfl
  | errorBusy => cases hres; cases hev; exact .sendEnd _ (Or.inr (Or.inr rfl)) (txAtRest_txResetEngine _) rfl
  | tickFrame now wrOk =>
    cases wrOk <;> cases hres <;> cases hev
    exact .sendEnd .failure (Or.inr (Or.inr rfl)) (txAtRest_txResetEngine _) rfl
  | sendFrame =>
    rw [txSendFrame_result] at hres
    cases hres; cases hev
  | _ => cases hres; cases hev

/-- Settles O26: each way of raising an event rests its engine and keeps the other. -/
theorem eventLeavesEngineAtRest : Obligations.EventLeavesEngineAtRest := by
  intro i s t r e h hres hev
  cases (executed_of_exec h).raised hres hev with
  | message node hnode hrest htx => exact ⟨hrest, htx⟩
  | rxError kind node hkind hnode hrest htx => rcases hkind with rfl | rfl | rfl <;> exact ⟨hrest, htx⟩
  | sendEnd kind hkind hrest hrx => rcases hkind with rfl | rfl | rfl <;> exact ⟨hrest, hrx⟩

/-- Settles O27: the node is the frame's or `tx_node`, and only a message has an id and a length. -/
theorem eventFields : Obligations.EventFields := by
  intro i s t r e h hres hev
  cases (executed_of_exec h).raised hres hev with
  | message node hnode => exact ⟨hnode, rfl⟩
  | rxError kind node hkind hnode => rcases hkind with rfl | rfl | rfl <;> exact ⟨hnode, rfl⟩
  | sendEnd kind hkind => rcases hkind with rfl | rfl | rfl <;> exact ⟨rfl, rfl⟩

end Sys2Proof.Machine
end

section
/-!
PROOFS. Reset and hazards: `RESET` from any power-on state (O38), and every operation completes (O41). For O41, first that each
instruction is answered where R32 and R33 hold, then what every end of `Executed` leaves of the requests, and last the step.
-/
namespace Sys2Proof.Machine

/-! ### `RESET` from power-on (R200, R202) -/

/-- Settles O38: `RESET` answers in every state, and its answer has both engines at rest. -/
theorem invariantFromPowerOn : Obligations.InvariantFromPowerOn := fun s h =>
  ⟨_, exec_reset s, blockInv_of_powerOn_reset h (exec_reset s)⟩

/-! ### Every instruction is answered (R121, R123, R140, R142) -/

/-- Whichever way a frame is issued, it has four bytes (R70). -/
theorem asFrame_eq_frameInstr {i : Instr} (h : isInbound i = true) : ∃ node f, asFrame i = frameInstr node f := by
  cases i with
  | ff node id len p0 => exact ⟨node, _, (frameInstr_headerFrame_ff node id len p0).symm⟩
  | cf node seq a b c => exact ⟨node, _, (frameInstr_cfFrame node seq a b c).symm⟩
  | sf node id len p0 => exact ⟨node, _, (frameInstr_headerFrame_sf node id len p0).symm⟩
  | ft3 node low6 b1 b2 b3 => exact ⟨node, _, (frameInstr_unassigned node low6 b1 b2 b3).symm⟩
  | rxFrame node b0 b1 b2 b3 => exact ⟨node, ⟨b0, b1, b2, b3⟩, rfl⟩
  | _ => exact Bool.noConfusion h

/-- Under R33 an announced message fits in `RXB`, so every inbound frame is answered. -/
theorem exec_inbound_answers {i : Instr} {s : State} (h : RxInv s.params s.rx) (hi : isInbound i = true) :
    ∃ t, exec i s = .next t := by
  have hroom (hc : s.rx.cstate = .cts) : s.rx.len.toNat < s.params.maxSize := by
    obtain ⟨_, hfits, _⟩ := h.cts hc
    exact hfits
  obtain ⟨node, f, hf⟩ := asFrame_eq_frameInstr hi
  rw [← exec_asFrame, hf]
  exact exec_frameInstr_answers hroom node f

/-- Under R32 (a) an idle engine is in `INIT`, so `TX_SEND` either is refused or builds a first frame. -/
theorem exec_txSend_answers {s : State} {len : Length} {payload : List Byte} (h : TxInv s.params s.tx)
    (hp : payload.length = len.toNat) (id : MsgId) (node : Node) (now : Time) (wrOk : Bool) :
    ∃ t, exec (.txSend id len payload node now wrOk) s = .next t := by
  cases hstate : s.tx.state with
  | busy => exact ⟨_, exec_txSend_of_busy hstate id len payload node now wrOk⟩
  | idle =>
    obtain ⟨hinit, _⟩ := h.idle hstate
    rcases Nat.lt_or_ge len.toNat s.params.maxSize with hlt | hle
    · exact ⟨_, exec_txSend_of_lt hstate hinit hlt hp id node now wrOk⟩
    · exact ⟨_, exec_txSend_of_le hstate hle id payload node now wrOk⟩

theorem exec_txAck_answers (s : State) : ∃ t, exec .txAck s = .next t := by
  cases hstate : s.tx.state with
  | busy => exact ⟨_, exec_txAck_of_busy hstate⟩
  | idle => exact ⟨_, exec_txAck_of_idle hstate⟩

/-- Under R32 (b), (c) the cursor of a message in flight is inside it and the message in `TXB`, so `TICK` can build its CF. -/
theorem exec_tick_answers {s : State} (h : TxInv s.params s.tx) (now : Time) (wrOk : Bool) :
    ∃ t, exec (.tick now wrOk) s = .next t := by
  cases hstate : s.tx.state with
  | idle => exact ⟨_, exec_tick_of_idle hstate now wrOk⟩
  | busy =>
    cases hack : s.tx.ack with
    | false => exact ⟨_, exec_tick_of_no_ack hstate hack now wrOk⟩
    | true =>
      cases hc : s.tx.cstate with
      | init => exact ⟨_, exec_tick_of_init hstate hack hc now wrOk⟩
      | cts =>
        obtain ⟨_, hlt, _⟩ := h.mid hstate hc
        exact ⟨_, exec_tick_of_cts hstate hack hc hlt (Nat.le_of_lt (h.fits hstate)) now wrOk⟩

theorem exec_rxRead_answers (idx : Index) (s : State) : ∃ t, exec (.rxRead idx) s = .next t := by
  rcases Nat.lt_or_ge idx.toNat s.params.maxSize with hlt | hle
  · exact ⟨_, exec_rxRead_of_lt hlt⟩
  · exact ⟨_, exec_rxRead_of_le hle⟩

/-- A well-formed instruction is answered in every state that has the invariants. -/
theorem exec_answers {i : Instr} {s : State} (h : BlockInv s) (hwf : wellFormed i = true) : ∃ t, exec i s = .next t := by
  cases i with
  | ff | cf | sf | ft3 | rxFrame => exact exec_inbound_answers h.rx rfl
  | txSend id len payload node now wrOk => exact exec_txSend_answers h.tx (beq_iff_eq.1 hwf) id node now wrOk
  | txAck => exact exec_txAck_answers s
  | tick now wrOk => exact exec_tick_answers h.tx now wrOk
  | rxRead idx => exact exec_rxRead_answers idx s
  | _ => exact ⟨_, rfl⟩

/-! ### The requests and the outputs after an instruction -/

theorem txSendFrame_requests (f : Frame) (now : Time) (wrOk : Bool) (s : State) :
    (txSendFrame f now wrOk s).requests = s.requests := by cases wrOk <;> rfl

theorem txTickFrame_requests (f : Frame) (now : Time) (wrOk : Bool) (s : State) :
    (txTickFrame f now wrOk s).requests = s.requests := by cases wrOk <;> rfl

/-- No operation issues or takes a request. -/
theorem Executed.requests_eq {i : Instr} {s t : State} (he : Executed i s t) : t.requests = s.requests := by
  cases he with
  | inbound _ _ _ _ _ hr => exact hr.hostKept.requests
  | sendFrame => rw [txSendFrame_requests]; rfl
  | tickFrame => rw [txTickFrame_requests]; rfl
  | _ => rfl

/-- Every operation that is answered has outputs, its status among them (R12, R172). -/
theorem result_isSome_of_exec {i : Instr} {s t : State} (h : exec i s = .next t) : t.result.isSome = true := by
  obtain ⟨hstatus, _⟩ := statusesByOperation
  obtain ⟨r, hres, _⟩ := hstatus i s t h
  rw [hres]
  rfl

/-! ### The step (R218) -/

/-- Only the instruction of the next request can fault a step. -/
theorem step_fault {s : State} {f : Fault} (h : step s = .fault f) :
    ∃ r rs i, s.requests = r :: rs ∧ decode r = .ok i ∧ exec i { s with requests := rs } = .fault f := by
  cases hreq : s.requests with
  | nil => simp [step, fetch, hreq] at h
  | cons r rs =>
    cases hdec : decode r with
    | error e => simp [step, fetch_of_requests hreq, hdec] at h
    | ok i => exact ⟨r, rs, i, rfl, hdec, (stepRunsDecodedInstruction s r rs i hreq hdec).symm.trans h⟩

/-- What the decoder reads is well formed, so it is answered, whatever requests are still to come. -/
theorem exec_decoded_answers {s : State} (h : BlockInv s) {r : Request} {i : Instr} (hdec : decode r = .ok i)
    (rs : List Request) : ∃ t, exec i { s with requests := rs } = .next t := by
  obtain ⟨hwf, _⟩ := encodeOfDecode r i hdec
  exact exec_answers (blockInv_setRequests h rs) hwf

/-- Settles O41: a decoded instruction is answered, so its step neither faults nor is refused; the requests and the outputs of the
answer are those of `Executed`. -/
theorem everyOperationCompletes : Obligations.EveryOperationCompletes := by
  refine fun s hinv => ⟨fun f hfault => ?_, fun r rs i hreq hdec => ?_⟩
  · obtain ⟨r, rs, i, _, hdec, hexec⟩ := step_fault hfault
    obtain ⟨t, ht⟩ := exec_decoded_answers hinv hdec rs
    cases ht.symm.trans hexec
  · obtain ⟨t, ht⟩ := exec_decoded_answers hinv hdec rs
    exact ⟨t, (stepRunsDecodedInstruction s r rs i hreq hdec).trans ht, (executed_of_exec ht).requests_eq,
      result_isSome_of_exec ht⟩

end Sys2Proof.Machine
end

section
/-!
PROOFS. The step beside O34: without an instruction to carry out (O35), and with a table-numbered word as the next request (O36).
O34 already says what a step does with a request that decodes; the lemmas here are the two other outcomes of a step, and what
`decodeTableWord` is in terms of `decode`.
-/
namespace Sys2Proof.Machine

/-! ### Without an instruction (assumption log 1) -/

theorem fetch_of_no_requests {s : State} (h : s.requests = []) : fetch s = none := by
  unfold fetch
  rw [h]

theorem step_of_no_requests {s : State} (h : s.requests = []) : step s = .next s := by
  unfold step
  rw [fetch_of_no_requests h]

theorem step_of_undecodable {s : State} {r : Request} {rs : List Request} {e : DecodeError} (hreq : s.requests = r :: rs)
    (hdec : decode r = .error e) : step s = .refused (.undecodable e) := by
  unfold step
  rw [fetch_of_requests hreq]
  simp only [hdec]

/-- Settles O35: nothing to fetch leaves the state, and a fetched request that the decoder rejects is refused with its reason. -/
theorem stepWithoutInstruction : Obligations.StepWithoutInstruction := fun _ =>
  ⟨step_of_no_requests, fun _ _ _ => step_of_undecodable⟩

/-! ### A table-numbered word (assumption log 2) -/

theorem decodeTableWord_eq_some_iff {nbits w : Nat} {i : Instr} :
    decodeTableWord nbits w = some i ↔ decode (tableRequest nbits w) = .ok i := by
  unfold decodeTableWord
  cases decode (tableRequest nbits w) with
  | ok j => simp
  | error e => simp

@[simp] theorem withFetchWord_requests (s : State) (nbits w : Nat) :
    (s.withFetchWord nbits w).requests = tableRequest nbits w :: s.requests := rfl

/-- Taking the placed word off the requests gives back the state it was placed in. -/
theorem withFetchWord_setRequests (s : State) (nbits w : Nat) :
    { s.withFetchWord nbits w with requests := s.requests } = s := rfl

/-- Settles O36: the placed word is the first request, so by O34 the step is its instruction, at the state without it. -/
theorem placedWordRunsNext : Obligations.PlacedWordRunsNext := by
  intro s nbits w i hword
  calc step (s.withFetchWord nbits w)
      = exec i { s.withFetchWord nbits w with requests := s.requests } :=
        stepRunsDecodedInstruction _ _ _ i (withFetchWord_requests s nbits w) (decodeTableWord_eq_some_iff.1 hword)
    _ = exec i s := by rw [withFetchWord_setRequests]

end Sys2Proof.Machine
end
